-- ==== Sys2Proof/Word.lean ====
section
/-! DEFINITION. The word: one signed integer (00_scope.md R5, R9), and the range of the words of `W` bits.

The spec writes every rule over mathematical integers, never slices a word into bits (R9, R10) and says where a
result must fit `W` bits. So a word of the machine is an `Int`, and `fits` says that it is one of `W` bits (log entry 2). -/

namespace Sys2Proof

/-- `MINW = -2^(W-1)` (00_scope.md R5). -/
def minW (w : Nat) : Int := -((2 ^ (w - 1) : Nat) : Int)

/-- `MAXW = 2^(W-1) - 1` (00_scope.md R5). -/
def maxW (w : Nat) : Int := ((2 ^ (w - 1) : Nat) : Int) - 1

/-- `fits(v)`: `MINW <= v <= MAXW` (00_scope.md R9). -/
abbrev fits (w : Nat) (v : Int) : Prop := minW w ≤ v ∧ v ≤ maxW w

end Sys2Proof
end

