-- ==== Sys2Proof/Config.lean ====
section
/-! DEFINITION. The four implementation parameters the spec leaves open (00_scope.md R5 to R8). The machine holds
one value of them for good (log entry 1); it has no free value (93_implementation_defined.md, 70_reset_and_hazards.md R109). -/

namespace Sys2Proof

/-- The implementation parameters of one core (00_scope.md section 4). -/
structure Params where
  /-- `W`: the width of a word in bits (R5). -/
  w : Nat
  /-- `MEM_DEPTH`: the number of cells of the memory array (R6). -/
  memDepth : Nat
  /-- `STEP_LIMIT`: the step-count ceiling, or `none` (R7). -/
  stepLimit : Option Nat
  /-- `IN_MAX`: the capacity of the input buffer in words (R8). -/
  inMax : Nat
  deriving DecidableEq, Repr

/-- The constraints of R5 (`W >= 16`), R6 (`0 < MEM_DEPTH <= 2^(W-1) - 4`) and R8 (`IN_MAX >= 1`). -/
abbrev Params.wf (p : Params) : Prop :=
  16 ≤ p.w ∧ 0 < p.memDepth ∧ p.memDepth + 4 ≤ 2 ^ (p.w - 1) ∧ 1 ≤ p.inMax

/-- The stated defaults: `W = 64`, `MEM_DEPTH = 65536`, `STEP_LIMIT = none`, `IN_MAX = 16` (R5 to R8). -/
def Params.default : Params := { w := 64, memDepth := 65536, stepLimit := none, inMax := 16 }

end Sys2Proof
end

