-- ==== Sys2Proof/Syntax.lean ====
section
/-! DEFINITION. The instructions of the opcode map (30_encoding.md R52), one constructor per row, with their
operands as 30_encoding.md R58 writes them: a source is `#n` or `[n]`, a write-target is `[n]`. -/

namespace Sys2Proof

/-- A parameter mode (30_encoding.md R47): digit 0 is position, digit 1 is immediate. -/
inductive Mode where
  | position
  | immediate
  deriving DecidableEq, Repr

/-- A source parameter with its raw word (30_encoding.md R51, R58): `[n]` or `#n`. -/
inductive Src where
  /-- `[n]`: the operand is the word of the cell at address `n`. -/
  | position (raw : Int)
  /-- `#n`: the operand is `n`. -/
  | immediate (raw : Int)
  deriving DecidableEq, Repr

/-- What an opcode word alone says (30_encoding.md R57): the row of the opcode map and the modes of its sources. -/
inductive Op where
  | add (a b : Mode)
  | mul (a b : Mode)
  | inp
  | out (a : Mode)
  | jt (cond target : Mode)
  | jf (cond target : Mode)
  | lt (a b : Mode)
  | eq (a b : Mode)
  | hlt
  deriving DecidableEq, Repr

/-- An instruction: opcode and parameter words (30_encoding.md R42, R52). A write-target `dst` is always in position
mode (R50), so it is its raw word, the address. -/
inductive Instr where
  /-- ADD, operation 1 (41_arithmetic.md R73). -/
  | add (a b : Src) (dst : Int)
  /-- MUL, operation 2 (41_arithmetic.md R74). -/
  | mul (a b : Src) (dst : Int)
  /-- IN, operation 3 (42_io.md R77). -/
  | inp (dst : Int)
  /-- OUT, operation 4 (42_io.md R78). -/
  | out (a : Src)
  /-- JT, operation 5 (43_jumps.md R79). -/
  | jt (cond target : Src)
  /-- JF, operation 6 (43_jumps.md R80). -/
  | jf (cond target : Src)
  /-- LT, operation 7 (44_compare.md R82). -/
  | lt (a b : Src) (dst : Int)
  /-- EQ, operation 8 (44_compare.md R83). -/
  | eq (a b : Src) (dst : Int)
  /-- HLT, operation 99 (45_halt.md R84). -/
  | hlt
  deriving DecidableEq, Repr

end Sys2Proof
end

