-- ==== Sys2Proof/WellFormed.lean ====
section
/-! DEFINITION. Which terms of `Instr` are instructions of a core with given parameters: every raw word is a word
of `W` bits (30_encoding.md R43: "Each parameter is one whole `W`-bit signed word, any value"). Nothing else can be
ill-formed: a mode is one of two (R47) and a write-target has none (R50). -/

namespace Sys2Proof

/-- The raw word of a source fits (00_scope.md R5). -/
def Src.wellFormed (p : Params) : Src → Bool
  | .position raw => decide (fits p.w raw)
  | .immediate raw => decide (fits p.w raw)

/-- Every raw word of the instruction fits `W` bits (30_encoding.md R43). -/
def Instr.wellFormed (p : Params) : Instr → Bool
  | .add a b dst => a.wellFormed p && b.wellFormed p && decide (fits p.w dst)
  | .mul a b dst => a.wellFormed p && b.wellFormed p && decide (fits p.w dst)
  | .inp dst => decide (fits p.w dst)
  | .out a => a.wellFormed p
  | .jt c t => c.wellFormed p && t.wellFormed p
  | .jf c t => c.wellFormed p && t.wellFormed p
  | .lt a b dst => a.wellFormed p && b.wellFormed p && decide (fits p.w dst)
  | .eq a b dst => a.wellFormed p && b.wellFormed p && decide (fits p.w dst)
  | .hlt => true

end Sys2Proof
end

