-- ==== Sys2Proof/Decode.lean ====
section
/-! DEFINITION. The decoder (30_encoding.md R42 to R57), total on any words and rejecting by name, and after it the
encoder (R53, R58). The encoding is decimal: operation `w mod 100`, mode of parameter `i` the digit `i` of `w div 100`. -/

namespace Sys2Proof

/-- Why a run of words is no instruction. The first two are the decoder's failures (30_encoding.md R57); the third is
not a decode failure of the spec: the words end before the instruction does (40_engine_step.md R68). -/
inductive Reject where
  | unknownOpcode
  | invalidParameterMode
  | missingWord
  deriving DecidableEq, Repr

/-- `digit(q, i) = (q div 10^i) mod 10` (00_scope.md R9). -/
def digit (q i : Nat) : Nat := q / 10 ^ i % 10

/-- The digits of `q` counted with at most `fuel` of them. -/
def ndigitsFuel : Nat → Nat → Nat
  | 0, _ => 0
  | fuel + 1, q => if q = 0 then 0 else ndigitsFuel fuel (q / 10) + 1

/-- `ndigits(q)`: the number of decimal digits of `q`, `ndigits(0) = 0` (00_scope.md R9). A number has no more decimal
digits than bits. -/
def ndigits (q : Nat) : Nat := ndigitsFuel (q.log2 + 1) q

/-- Every decimal digit of `q` is 0 or 1 (30_encoding.md R48). -/
def modesLegal (q : Nat) : Bool := (List.range (ndigits q)).all fun i => decide (digit q i ≤ 1)

/-- The mode of parameter `i`, from the quotient `q = w div 100` (30_encoding.md R46, R47). -/
def modeOf (q i : Nat) : Mode := if digit q i = 0 then .position else .immediate

/-- The row of the opcode map (30_encoding.md R52) for operation `op`, with the modes the quotient `q` gives its sources.
An operation not in the map is rejected (R54), and so is an immediate write-target (R50). -/
def decodeOperation (op q : Nat) : Except Reject Op :=
  match op with
  | 1 => if digit q 2 = 1 then .error .invalidParameterMode else .ok (.add (modeOf q 0) (modeOf q 1))
  | 2 => if digit q 2 = 1 then .error .invalidParameterMode else .ok (.mul (modeOf q 0) (modeOf q 1))
  | 3 => if digit q 0 = 1 then .error .invalidParameterMode else .ok .inp
  | 4 => .ok (.out (modeOf q 0))
  | 5 => .ok (.jt (modeOf q 0) (modeOf q 1))
  | 6 => .ok (.jf (modeOf q 0) (modeOf q 1))
  | 7 => if digit q 2 = 1 then .error .invalidParameterMode else .ok (.lt (modeOf q 0) (modeOf q 1))
  | 8 => if digit q 2 = 1 then .error .invalidParameterMode else .ok (.eq (modeOf q 0) (modeOf q 1))
  | 99 => .ok .hlt
  | _ => .error .unknownOpcode

/-- `decode(w)` (30_encoding.md R57), its tests in the order the rule gives them. -/
def decodeOpcode (w : Int) : Except Reject Op :=
  if w < 0 then .error .unknownOpcode
  else if modesLegal (w.toNat / 100) = false then .error .invalidParameterMode
  else decodeOperation (w.toNat % 100) (w.toNat / 100)

/-- The parameter count `n` of an operation (30_encoding.md R43, R44). -/
def Op.arity : Op → Nat
  | .add _ _ => 3
  | .mul _ _ => 3
  | .inp => 1
  | .out _ => 1
  | .jt _ _ => 2
  | .jf _ _ => 2
  | .lt _ _ => 3
  | .eq _ _ => 3
  | .hlt => 0

/-- A source of a mode and a raw word (30_encoding.md R51). -/
def Src.ofMode : Mode → Int → Src
  | .position, raw => .position raw
  | .immediate, raw => .immediate raw

/-- The instruction of an operation and the parameter words that follow it, with the words left over; `none` where
they are too few (30_encoding.md R42, R43). -/
def Op.build : Op → List Int → Option (Instr × List Int)
  | .add a b, p0 :: p1 :: p2 :: rest => some (.add (.ofMode a p0) (.ofMode b p1) p2, rest)
  | .mul a b, p0 :: p1 :: p2 :: rest => some (.mul (.ofMode a p0) (.ofMode b p1) p2, rest)
  | .inp, p0 :: rest => some (.inp p0, rest)
  | .out a, p0 :: rest => some (.out (.ofMode a p0), rest)
  | .jt c t, p0 :: p1 :: rest => some (.jt (.ofMode c p0) (.ofMode t p1), rest)
  | .jf c t, p0 :: p1 :: rest => some (.jf (.ofMode c p0) (.ofMode t p1), rest)
  | .lt a b, p0 :: p1 :: p2 :: rest => some (.lt (.ofMode a p0) (.ofMode b p1) p2, rest)
  | .eq a b, p0 :: p1 :: p2 :: rest => some (.eq (.ofMode a p0) (.ofMode b p1) p2, rest)
  | .hlt, rest => some (.hlt, rest)
  | _, _ => none

/-- The instruction at the head of a run of words, with the words left over (30_encoding.md R42, R57). -/
def decode : List Int → Except Reject (Instr × List Int)
  | [] => .error .missingWord
  | w :: ws =>
    match decodeOpcode w with
    | .error e => .error e
    | .ok op =>
      match op.build ws with
      | none => .error .missingWord
      | some r => .ok r

/-! The encoder. -/

/-- The mode digit of a source (30_encoding.md R47). -/
def Src.modeDigit : Src → Nat
  | .position _ => 0
  | .immediate _ => 1

/-- The raw word of a source (30_encoding.md R51). -/
def Src.raw : Src → Int
  | .position raw => raw
  | .immediate raw => raw

/-- The operation code of an instruction (30_encoding.md R52). -/
def Instr.operation : Instr → Nat
  | .add _ _ _ => 1
  | .mul _ _ _ => 2
  | .inp _ => 3
  | .out _ => 4
  | .jt _ _ => 5
  | .jf _ _ => 6
  | .lt _ _ _ => 7
  | .eq _ _ _ => 8
  | .hlt => 99

/-- The mode digits of an instruction as one number: parameter `i`'s is its digit `i` (30_encoding.md R46, R58). -/
def Instr.modeDigits : Instr → Nat
  | .add a b _ => a.modeDigit + 10 * b.modeDigit
  | .mul a b _ => a.modeDigit + 10 * b.modeDigit
  | .inp _ => 0
  | .out a => a.modeDigit
  | .jt c t => c.modeDigit + 10 * t.modeDigit
  | .jf c t => c.modeDigit + 10 * t.modeDigit
  | .lt a b _ => a.modeDigit + 10 * b.modeDigit
  | .eq a b _ => a.modeDigit + 10 * b.modeDigit
  | .hlt => 0

/-- The raw parameter words in parameter order (30_encoding.md R42). -/
def Instr.rawWords : Instr → List Int
  | .add a b dst => [a.raw, b.raw, dst]
  | .mul a b dst => [a.raw, b.raw, dst]
  | .inp dst => [dst]
  | .out a => [a.raw]
  | .jt c t => [c.raw, t.raw]
  | .jf c t => [c.raw, t.raw]
  | .lt a b dst => [a.raw, b.raw, dst]
  | .eq a b dst => [a.raw, b.raw, dst]
  | .hlt => []

/-- The opcode word of an instruction with excess mode digits `e` above those of its parameters (30_encoding.md R49);
`e = 0` gives the canonical word (R53, R58). -/
def Instr.opcodeWordWith (e : Nat) (i : Instr) : Int :=
  ((i.operation + 100 * (i.modeDigits + 10 ^ i.rawWords.length * e) : Nat) : Int)

/-- The words of an instruction, its opcode word canonical (30_encoding.md R53, R58). -/
def encode (i : Instr) : List Int := i.opcodeWordWith 0 :: i.rawWords

/-! The opcode table's numbering of bits (log entry 14). -/

/-- The word whose `W`-bit two's-complement form is the low `W` bits of `n` (00_scope.md R5). -/
def wordOfBits (w n : Nat) : Int :=
  let m := n % 2 ^ w
  if m < 2 ^ (w - 1) then (m : Int) else (m : Int) - ((2 ^ w : Nat) : Int)

/-- The four words, the longest instruction's, of a number of `nbits` bits: bit 0 is the least significant bit of the
first word and each later word's bits count on; every bit from `nbits` up is 0. -/
def tableWords (w nbits bits : Nat) : List Int :=
  let b := bits % 2 ^ nbits
  [wordOfBits w b, wordOfBits w (b / 2 ^ w), wordOfBits w (b / 2 ^ (2 * w)), wordOfBits w (b / 2 ^ (3 * w))]

/-- What the decoder reads from an instruction given as a number, on the default core (`W = 64`). -/
def decodeTableWord (nbits w : Nat) : Option Instr :=
  match decode (tableWords Params.default.w nbits w) with
  | .ok (i, _) => some i
  | .error _ => none

end Sys2Proof
end

