-- ==== Sys2Proof/Machine/State.lean ====
section
/-! DEFINITION. The machine's state (10_state.md R14 to R22), its value right after reset (70_reset_and_hazards.md
R100), and why a step can stop. -/

namespace Sys2Proof.Machine

/-- `RUN` (10_state.md R15). -/
inductive RunState where
  | running
  | halted
  | failed
  deriving DecidableEq, Repr

/-- `FAIL_REASON` (10_state.md R16). -/
inductive FailReason where
  | none
  | unknownOpcode
  | invalidParameterMode
  | undefinedAddress
  | inputExhausted
  | stepLimitExceeded
  | arithmeticOverflow
  deriving DecidableEq, Repr

/-- The level of the port `rst` (10_state.md R24). While it is asserted the host loads (70_reset_and_hazards.md R101);
what it has loaded whole since is kept, because it must load both before it releases `rst` (R102, R106; log entry 7). -/
inductive ResetLine where
  | asserted (programLoaded inputLoaded : Bool)
  | released
  deriving DecidableEq, Repr

/-- One cell of the memory array: its address and its word (20_memory.md R27; log entry 3). -/
abbrev Cell := Nat × Int

/-- `MEM` (10_state.md R21): the cells that do not hold 0, in rising order of address (log entries 3 and 4). -/
abbrev Memory := List Cell

/-- The architectural state (10_state.md R22: "There is no other state"), with the constant parameters (R23) and the
level of `rst` (R24) beside it. -/
structure State where
  /-- `W`, `MEM_DEPTH`, `STEP_LIMIT`, `IN_MAX` (00_scope.md R5 to R8); no step and no transaction changes them. -/
  params : Params
  /-- The port `rst` (R24, R100). -/
  rst : ResetLine
  /-- `MEM` (R21). -/
  mem : Memory
  /-- `LEN` (R17). -/
  len : Nat
  /-- `IP` (R14). -/
  ip : Int
  /-- `RUN` (R15). -/
  run : RunState
  /-- `FAIL_REASON` (R16). -/
  failReason : FailReason
  /-- `INQ`; its length is `IN_LEN` (R18; log entry 10). -/
  inq : List Int
  /-- `IN_HEAD` (R18). -/
  inHead : Nat
  /-- `OUT`, oldest word first (R19). -/
  out : List Int
  /-- `STEPS` (R20). -/
  steps : Nat
  deriving DecidableEq, Repr

/-- Why no step is taken (log entry 8). Each is safe: the spec defines no step there and changes no state. A failure
of the program is none of these: it is a next state (60_exceptions.md R89). -/
inductive Fault where
  /-- Raised by `step` while `rst` is asserted: "the engine takes no step" (70_reset_and_hazards.md R100). Safe. -/
  | heldInReset
  /-- Raised by `step` when `RUN = Halted`: no step is defined (40_engine_step.md R60, R62). Safe. -/
  | halted
  /-- Raised by `step` when `RUN = Failed`, with `FAIL_REASON`: no step is defined (40_engine_step.md R60, R62). Safe. -/
  | failed (reason : FailReason)
  deriving DecidableEq, Repr

/-- What is refused. All but the first are transactions the spec forbids the host (70_reset_and_hazards.md R101, R106;
log entry 12); `step` and `exec` never answer one. Each is safe. -/
inductive Refusal where
  /-- An arm of `exec` without a meaning; no arm is left so. Safe. -/
  | notModelled (mnemonic : String)
  /-- Raised by the load and input ports while `rst` is not asserted (R101, R106). Safe. -/
  | loadOutsideReset
  /-- Raised by the load port: `LEN > MEM_DEPTH` (R101). Safe. -/
  | programTooLong
  /-- Raised by the load port: a word of the program does not fit `W` bits (R101, R103). Safe. -/
  | programWordTooWide
  /-- Raised by the input port: `IN_LEN > IN_MAX` (R101). Safe. -/
  | inputTooLong
  /-- Raised by the input port: a word of the input does not fit `W` bits (R101, R103). Safe. -/
  | inputWordTooWide
  /-- Raised when `rst` is released before a whole program and a whole input are loaded (R102, R104, R106). Safe. -/
  | releaseBeforeLoad
  /-- Raised when `rst` is released while it is not asserted (R24). Safe. -/
  | releaseOutsideReset
  deriving DecidableEq, Repr

/-- The outcome of a step of this machine. -/
abbrev Result := Host.Outcome State Fault Refusal

/-- The core with parameters `p`, `rst` asserted and nothing loaded (70_reset_and_hazards.md R100). `MEM`, `LEN`, `INQ`
are unspecified there; the values are the model's choice (log entries 4, 5, 6) and no run begins from them. -/
def State.resetWith (p : Params) : State :=
  { params := p, rst := .asserted false false, mem := [], len := 0, ip := 0, run := .running, failReason := .none,
    inq := [], inHead := 0, out := [], steps := 0 }

/-- The default core right after reset (70_reset_and_hazards.md R100; 00_scope.md R5 to R8). -/
def State.reset : State := State.resetWith Params.default

end Sys2Proof.Machine
end

