-- ==== Sys2Proof/Machine/Ops.lean ====
section
/-! DEFINITION. The named operations over memory and state that the engine and the nine instructions share
(20_memory.md, 40_engine_step.md, 60_exceptions.md), among them raising a failure. -/

namespace Sys2Proof.Machine

/-! ## The memory array (20_memory.md) -/

/-- What an address that is not listed holds (log entry 4). -/
def unlistedWord : Int := 0

/-- The word of cell `a`. -/
def Memory.read : Memory → Nat → Int
  | [], _ => unlistedWord
  | (b, v) :: rest, a => if b = a then v else Memory.read rest a

/-- Memory with `v` in cell `a`, in canonical form if `m` is. -/
def Memory.write : Memory → Nat → Int → Memory
  | [], a, v => if v = unlistedWord then [] else [(a, v)]
  | (b, u) :: rest, a, v =>
    if a < b then if v = unlistedWord then (b, u) :: rest else (a, v) :: (b, u) :: rest
    else if a = b then if v = unlistedWord then rest else (a, v) :: rest
    else (b, u) :: Memory.write rest a v

/-- Memory with the words `ws` in the cells from `a` on, in order (70_reset_and_hazards.md R101). -/
def Memory.writeAll : Memory → Nat → List Int → Memory
  | m, _, [] => m
  | m, a, v :: vs => Memory.writeAll (Memory.write m a v) (a + 1) vs

/-- The canonical form from address `lo` on: addresses strictly rising, no cell listed that holds the unlisted word. -/
def Memory.wfFrom (lo : Nat) : Memory → Bool
  | [] => true
  | (a, v) :: rest => decide (lo ≤ a) && decide (v ≠ unlistedWord) && Memory.wfFrom (a + 1) rest

/-- The canonical form of memory. -/
def Memory.wf (m : Memory) : Bool := Memory.wfFrom 0 m

/-- `Valid(a)`: `0 <= a < LEN` (20_memory.md R28). -/
abbrev State.Valid (s : State) (a : Int) : Prop := 0 ≤ a ∧ a < s.len

/-- `MemRead(a)`: the word of a valid cell; `none` is the failure `UndefinedAddress` (20_memory.md R31, R33). -/
def State.memRead (s : State) (a : Int) : Option Int :=
  if s.Valid a then some (s.mem.read a.toNat) else none

/-- `MEM[a] <- v`, for an address already found valid (20_memory.md R32, 40_engine_step.md R70). -/
def State.store (s : State) (a v : Int) : State := { s with mem := s.mem.write a.toNat v }

/-! ## The other registers -/

/-- `IP <- target` (10_state.md R14). -/
def State.setIp (s : State) (target : Int) : State := { s with ip := target }

/-- The default advance, `IP <- IP + 1 + n` (40_engine_step.md R72). -/
def State.advance (s : State) (n : Nat) : State := s.setIp (s.ip + 1 + n)

/-- `OUT <- OUT ++ [v]` (10_state.md R19). -/
def State.emit (s : State) (v : Int) : State := { s with out := s.out ++ [v] }

/-- `IN_LEN` (10_state.md R18; log entry 10). -/
def State.inLen (s : State) : Nat := s.inq.length

/-- The next unread input word, `INQ[IN_HEAD]`, if one remains (10_state.md R18; log entry 9). -/
def State.nextInput (s : State) : Option Int := s.inq[s.inHead]?

/-- `IN_HEAD <- IN_HEAD + 1` (42_io.md R77). -/
def State.consume (s : State) : State := { s with inHead := s.inHead + 1 }

/-- `STEPS <- STEPS + 1` (40_engine_step.md R64). -/
def State.countStep (s : State) : State := { s with steps := s.steps + 1 }

/-- `RUN <- Halted` (45_halt.md R84). -/
def State.halt (s : State) : State := { s with run := .halted }

/-! ## Failure entry (60_exceptions.md R89, R90) -/

/-- `RUN <- Failed` and `FAIL_REASON <- r`, both at once; nothing else (60_exceptions.md R89, R90). -/
def State.fail (s : State) (r : FailReason) : State := { s with run := .failed, failReason := r }

/-- `raise r`: the step ends in the failed state (60_exceptions.md R89). There is no return from it (R92). -/
def raise (r : FailReason) (s : State) : Result := .next (s.fail r)

/-! ## Operands (40_engine_step.md R70) and the parameter words (R68) -/

/-- The check of a write-target in its turn (40_engine_step.md R70). -/
def withTarget (dst : Int) (s : State) (k : Result) : Result :=
  if s.Valid dst then k else raise .undefinedAddress s

/-- `MemRead` of `n` cells from address `a` on, in order; `none` where one of them is not valid. -/
def State.readWords (s : State) : Int → Nat → Option (List Int)
  | _, 0 => some []
  | a, n + 1 =>
    match s.memRead a with
    | none => none
    | some v =>
      match State.readWords s (a + 1) n with
      | none => none
      | some vs => some (v :: vs)

/-- Stage 4: the raw words `p[0] .. p[n-1]`, at `IP + 1 + i` (40_engine_step.md R68). -/
def State.fetchParams (s : State) (n : Nat) : Option (List Int) := s.readWords (s.ip + 1) n

end Sys2Proof.Machine
end

