-- ==== Sys2Proof/Machine/Flags.lean ====
section
/-! DEFINITION. The machine has no flags (10_state.md R12). What other machines put into flags is computed here: whether
an exact result fits (41_arithmetic.md R75), the comparison words of LT and EQ, the tests of JT and JF (R76). -/

namespace Sys2Proof.Machine

/-- An exact result if it fits `W` bits; `none` is the failure `ArithmeticOverflow` (41_arithmetic.md R75). -/
def narrow (w : Nat) (r : Int) : Option Int := if fits w r then some r else none

/-- The exact sum, if it fits (41_arithmetic.md R73, R75). -/
def aluAdd (w : Nat) (x y : Int) : Option Int := narrow w (x + y)

/-- The exact product, if it fits (41_arithmetic.md R74, R75). -/
def aluMul (w : Nat) (x y : Int) : Option Int := narrow w (x * y)

/-- The word 1 for true, 0 for false (44_compare.md R82, R83). -/
def truthWord (b : Bool) : Int := if b then 1 else 0

/-- LT's result: 1 if `x < y`, signed (44_compare.md R82). -/
def lessWord (x y : Int) : Int := truthWord (decide (x < y))

/-- EQ's result: 1 if `x = y` (44_compare.md R83). -/
def equalWord (x y : Int) : Int := truthWord (decide (x = y))

/-- JT's test: any word but 0 is true (43_jumps.md R79). -/
def jumpsIfTrue (x : Int) : Bool := decide (x ≠ 0)

/-- JF's test: only 0 is false (43_jumps.md R80). -/
def jumpsIfFalse (x : Int) : Bool := decide (x = 0)

end Sys2Proof.Machine
end

