-- ==== Sys2Proof/Machine/Operands.lean ====
section
/-! DEFINITION. The two operand forms of a source parameter (30_encoding.md R47, R51; 40_engine_step.md R69). -/

namespace Sys2Proof.Machine

/-- `value(i)`: the raw word of an immediate, the word of the cell a position names; `none` is the failure
`UndefinedAddress` (40_engine_step.md R69). -/
def sourceValue (s : State) : Src → Option Int
  | .immediate raw => some raw
  | .position raw => s.memRead raw

/-- Resolve a source parameter in its turn and go on with its operand (40_engine_step.md R69). -/
def withSource (a : Src) (s : State) (k : Int → Result) : Result :=
  match sourceValue s a with
  | none => raise .undefinedAddress s
  | some v => k v

end Sys2Proof.Machine
end

