-- ==== Sys2Proof/Machine/Arithmetic.lean ====
section
/-! DEFINITION. ADD and MUL (41_arithmetic.md), and the shape ADD, MUL, LT and EQ share: stages 5, 6 and 7 of
40_engine_step.md R63 for two sources and a write-target. -/

namespace Sys2Proof.Machine

/-- Stage 6 and 7 of a storing instruction of format F3: a result is stored and `IP` advances by 4; no result is the
failure `ArithmeticOverflow` (40_engine_step.md R71, R72; 41_arithmetic.md R75). -/
def commitResult (r : Option Int) (dst : Int) (s : State) : Result :=
  match r with
  | none => raise .arithmeticOverflow s
  | some v => .next ((s.store dst v).advance 3)

/-- Stage 5 in parameter order, a, b, dst (40_engine_step.md R69, R70), then the commit. -/
def execBinary (f : Int → Int → Option Int) (a b : Src) (dst : Int) (s : State) : Result :=
  withSource a s fun x =>
    withSource b s fun y =>
      withTarget dst s (commitResult (f x y) dst s)

/-- ADD (41_arithmetic.md R73). -/
def execAdd (a b : Src) (dst : Int) (s : State) : Result := execBinary (aluAdd s.params.w) a b dst s

/-- MUL (41_arithmetic.md R74). -/
def execMul (a b : Src) (dst : Int) (s : State) : Result := execBinary (aluMul s.params.w) a b dst s

end Sys2Proof.Machine
end

