-- ==== Sys2Proof/Machine/Compare.lean ====
section
/-! DEFINITION. LT and EQ (44_compare.md). -/

namespace Sys2Proof.Machine

/-- LT (44_compare.md R82). -/
def execLt (a b : Src) (dst : Int) (s : State) : Result := execBinary (fun x y => some (lessWord x y)) a b dst s

/-- EQ (44_compare.md R83). -/
def execEq (a b : Src) (dst : Int) (s : State) : Result := execBinary (fun x y => some (equalWord x y)) a b dst s

end Sys2Proof.Machine
end

