-- ==== Sys2Proof/Machine/Halting.lean ====
section
/-! DEFINITION. HLT (45_halt.md). -/

namespace Sys2Proof.Machine

/-- HLT (45_halt.md R84): `RUN <- Halted`; `IP` is not advanced. -/
def execHlt (s : State) : Result := .next s.halt

end Sys2Proof.Machine
end

