-- ==== Sys2Proof/Machine/InOut.lean ====
section
/-! DEFINITION. IN and OUT (42_io.md). -/

namespace Sys2Proof.Machine

/-- IN (42_io.md R77): the write-target is checked before the input is looked at; a failing IN consumes nothing. -/
def execIn (dst : Int) (s : State) : Result :=
  withTarget dst s
    (match s.nextInput with
    | none => raise .inputExhausted s
    | some v => .next (((s.store dst v).consume).advance 1))

/-- OUT (42_io.md R78). -/
def execOut (a : Src) (s : State) : Result :=
  withSource a s fun v => .next ((s.emit v).advance 1)

end Sys2Proof.Machine
end

