-- ==== Sys2Proof/Machine/Jumps.lean ====
section
/-! DEFINITION. JT and JF (43_jumps.md). The target is resolved whether or not the jump is taken (40_engine_step.md
R69) and is not checked at the jump (43_jumps.md R81). -/

namespace Sys2Proof.Machine

/-- A conditional jump whose condition is tested by `test`. -/
def execJump (test : Int → Bool) (cond target : Src) (s : State) : Result :=
  withSource cond s fun c =>
    withSource target s fun t =>
      .next (if test c then s.setIp t else s.advance 2)

/-- JT (43_jumps.md R79). -/
def execJt (cond target : Src) (s : State) : Result := execJump jumpsIfTrue cond target s

/-- JF (43_jumps.md R80). -/
def execJf (cond target : Src) (s : State) : Result := execJump jumpsIfFalse cond target s

end Sys2Proof.Machine
end

