-- ==== Sys2Proof/Machine/Engine.lean ====
section
/-! DEFINITION. The engine around the execute stage (40_engine_step.md R63): when a step is taken at all, stage 0
(limit), stage 1 (fetch), stage 2 (decode), stage 4 (parameter fetch), and then `exec` (stages 3, 5, 6, 7). -/

namespace Sys2Proof.Machine

/-- `STEP_LIMIT` is a number and `STEPS` has reached it (40_engine_step.md R64). -/
abbrev State.LimitReached (s : State) : Prop := s.params.stepLimit = some s.steps

/-- The failure a run of words that is no instruction raises: the decoder's own (30_encoding.md R57), or
`UndefinedAddress` where a parameter word lies outside the load range (40_engine_step.md R68). -/
def rejectReason : Reject → FailReason
  | .unknownOpcode => .unknownOpcode
  | .invalidParameterMode => .invalidParameterMode
  | .missingWord => .undefinedAddress

/-- Stages 4 to 7 of an instruction whose opcode word has been decoded. HLT has no parameter word to fetch, so stage 3
is its `exec` (40_engine_step.md R67, R68; log entry 15). -/
def runOp (op : Op) (s : State) : Result :=
  match (s.fetchParams op.arity).bind op.build with
  | none => raise .undefinedAddress s
  | some (i, _) => exec i s

/-- Stages 2 to 7 for the opcode word `w` (40_engine_step.md R66). -/
def runWord (w : Int) (s : State) : Result :=
  match decodeOpcode w with
  | .error e => raise (rejectReason e) s
  | .ok op => runOp op s

/-- Stages 1 to 7: the fetch of the opcode word and the rest (40_engine_step.md R65). -/
def runFetch (s : State) : Result :=
  match s.memRead s.ip with
  | none => raise .undefinedAddress s
  | some w => runWord w s

/-- Stage 0 and the rest, for a state with `RUN = Running` (40_engine_step.md R63, R64). -/
def runStep (s : State) : Result :=
  if s.LimitReached then raise .stepLimitExceeded s else runFetch s.countStep

/-- One step: none is taken while `rst` is asserted (70_reset_and_hazards.md R100) or after the run has ended
(40_engine_step.md R60, R62). -/
def engineStep (s : State) : Result :=
  match s.rst with
  | .asserted _ _ => .fault .heldInReset
  | .released =>
    match s.run with
    | .running => runStep s
    | .halted => .fault .halted
    | .failed => .fault (.failed s.failReason)

/-- The address at which the next instruction is placed from outside: `IP` where four words fit into the array there,
else 0. -/
def State.placeAddress (s : State) : Nat :=
  if 0 ≤ s.ip ∧ s.ip + 4 ≤ s.params.memDepth then s.ip.toNat else 0

/-- `s` with the words `ws` placed where the next step fetches, the load range grown over them, `rst` released, `RUN`
Running and no step limit in the way (log entry 13). -/
def State.place (s : State) (ws : List Int) : State :=
  { s with
    params := if s.LimitReached then { s.params with stepLimit := none } else s.params
    rst := .released
    mem := s.mem.writeAll s.placeAddress ws
    len := max s.len (s.placeAddress + ws.length)
    ip := s.placeAddress
    run := .running
    failReason := .none }

end Sys2Proof.Machine
end

