-- ==== Sys2Proof/Machine/Step.lean ====
section
/-! DEFINITION. The step (40_engine_step.md R63), and an instruction given as a number placed where the step fetches. -/

namespace Sys2Proof.Machine

/-- One step of the core (40_engine_step.md R60, R63; 70_reset_and_hazards.md R100). -/
def step : State → Host.Outcome State Fault Refusal := engineStep

/-- `s` with the instruction whose bits are `w` placed where `step` fetches its next instruction (log entries 13, 14). -/
def State.withFetchWord (s : State) (nbits w : Nat) : State := s.place (tableWords s.params.w nbits w)

end Sys2Proof.Machine
end

