-- ==== Sys2Proof/Machine/Ports.lean ====
section
/-! DEFINITION. The ports (10_state.md R24): what the host can do to the core and see of it (70_reset_and_hazards.md
R100 to R106). None of these is a step; what the spec forbids the host is refused by name (log entry 12). -/

namespace Sys2Proof.Machine

/-- `rst` asserted, at any time and in any run state (70_reset_and_hazards.md R100): `MEM`, `LEN`, `INQ` are not
cleared (log entry 18), and whatever was loaded before does not count any more (R104). -/
def State.assertRst (s : State) : State :=
  { s with
    rst := .asserted false false
    ip := 0
    run := .running
    failReason := .none
    inHead := 0
    out := []
    steps := 0 }

/-- The load port: the whole program image into cells `0 .. LEN-1`, and `LEN` (70_reset_and_hazards.md R101; log
entries 17, 19). -/
def State.loadProgram (p : List Int) (s : State) : Result :=
  match s.rst with
  | .released => .refused .loadOutsideReset
  | .asserted _ inputLoaded =>
    if s.params.memDepth < p.length then .refused .programTooLong
    else if p.all (fun v => decide (fits s.params.w v)) = false then .refused .programWordTooWide
    else .next { s with mem := s.mem.writeAll 0 p, len := p.length, rst := .asserted true inputLoaded }

/-- The input port: the whole input sequence, and `IN_LEN` (70_reset_and_hazards.md R101). -/
def State.loadInput (xs : List Int) (s : State) : Result :=
  match s.rst with
  | .released => .refused .loadOutsideReset
  | .asserted programLoaded _ =>
    if s.params.inMax < xs.length then .refused .inputTooLong
    else if xs.all (fun v => decide (fits s.params.w v)) = false then .refused .inputWordTooWide
    else .next { s with inq := xs, rst := .asserted programLoaded true }

/-- `rst` released, the call of `execute` (10_state.md R24): only after both loads (70_reset_and_hazards.md R102). -/
def State.releaseRst (s : State) : Result :=
  match s.rst with
  | .released => .refused .releaseOutsideReset
  | .asserted true true => .next { s with rst := .released }
  | .asserted _ _ => .refused .releaseBeforeLoad

/-- Go on with the state of a transaction that was not refused. -/
def andThen (r : Result) (k : State → Result) : Result :=
  match r with
  | .next s => k s
  | .fault f => .fault f
  | .refused f => .refused f

/-- The boot sequence: assert `rst`, load the program, load the input, release `rst` (70_reset_and_hazards.md R102). -/
def State.boot (p xs : List Int) (s : State) : Result :=
  andThen (s.assertRst.loadProgram p) fun s1 => andThen (s1.loadInput xs) State.releaseRst

/-- `RUN` on the status port (10_state.md R15). -/
def RunState.code : RunState → BitVec 2
  | .running => 0
  | .halted => 1
  | .failed => 2

/-- `FAIL_REASON` on the status port (10_state.md R16, 60_exceptions.md R86). -/
def FailReason.code : FailReason → BitVec 3
  | .none => 0
  | .unknownOpcode => 1
  | .invalidParameterMode => 2
  | .undefinedAddress => 3
  | .inputExhausted => 4
  | .stepLimitExceeded => 5
  | .arithmeticOverflow => 6

/-- The status port, readable always: `run_state` and `fail_reason` (10_state.md R24). -/
def State.statusPort (s : State) : BitVec 2 × BitVec 3 := (s.run.code, s.failReason.code)

/-- The debug read port's memory: `MEM[a]` for `0 <= a < LEN`, only when the run has ended (10_state.md R24). -/
def State.debugRead (s : State) (a : Int) : Option Int :=
  if s.rst = .released ∧ s.run ≠ .running then s.memRead a else none

/-- The debug read port's `dbg_ip`, only when the run has ended (10_state.md R24). -/
def State.debugIp (s : State) : Option Int :=
  if s.rst = .released ∧ s.run ≠ .running then some s.ip else none

/-- The output port over a step: the words driven on it, in order (10_state.md R19, R24; 42_io.md R78). -/
def outputPort (before after : State) : List Int := after.out.drop before.out.length

/-- The result of a run that has ended (70_reset_and_hazards.md R105, 60_exceptions.md R91): the output of a halted
run, the reason of a failed one; the output of a failed run is no part of its result. -/
def State.result (s : State) : Option (Except FailReason (List Int)) :=
  match s.run with
  | .running => none
  | .halted => some (.ok s.out)
  | .failed => some (.error s.failReason)

end Sys2Proof.Machine
end

