-- ==== Sys2Proof/Safety.lean ====
section
/-! DEFINITION. The terms claims are stated in: the invariants of 10_state.md R26, a run, and the two comparisons of
machines that claims make. -/

namespace Sys2Proof

/-- The source parameters of an instruction, in parameter order (30_encoding.md R52). -/
def Instr.sources : Instr → List Src
  | .add a b _ => [a, b]
  | .mul a b _ => [a, b]
  | .inp _ => []
  | .out a => [a]
  | .jt c t => [c, t]
  | .jf c t => [c, t]
  | .lt a b _ => [a, b]
  | .eq a b _ => [a, b]
  | .hlt => []

/-- The write-target of an instruction: the address it stores to (30_encoding.md R50, R52). -/
def Instr.target : Instr → Option Int
  | .add _ _ dst => some dst
  | .mul _ _ dst => some dst
  | .inp dst => some dst
  | .out _ => none
  | .jt _ _ => none
  | .jf _ _ => none
  | .lt _ _ dst => some dst
  | .eq _ _ dst => some dst
  | .hlt => none

/-- The canonical opcode words and what each decodes to: the table of 30_encoding.md R53, in its order. -/
def canonicalWords : List (Int × Op) :=
  [(1, .add .position .position), (101, .add .immediate .position), (1001, .add .position .immediate),
    (1101, .add .immediate .immediate)] ++
  [(2, .mul .position .position), (102, .mul .immediate .position), (1002, .mul .position .immediate),
    (1102, .mul .immediate .immediate)] ++
  [(3, .inp), (4, .out .position), (104, .out .immediate)] ++
  [(5, .jt .position .position), (105, .jt .immediate .position), (1005, .jt .position .immediate),
    (1105, .jt .immediate .immediate)] ++
  [(6, .jf .position .position), (106, .jf .immediate .position), (1006, .jf .position .immediate),
    (1106, .jf .immediate .immediate)] ++
  [(7, .lt .position .position), (107, .lt .immediate .position), (1007, .lt .position .immediate),
    (1107, .lt .immediate .immediate)] ++
  [(8, .eq .position .position), (108, .eq .immediate .position), (1008, .eq .position .immediate),
    (1108, .eq .immediate .immediate)] ++
  [(99, .hlt)]

/-- The operation codes of the opcode map (30_encoding.md R52). -/
def operationCodes : List Nat := [1, 2, 3, 4, 5, 6, 7, 8, 99]

end Sys2Proof

namespace Sys2Proof.Machine

/-- Every word of a memory is stored below cell `depth` and fits `w` bits. -/
abbrev Memory.Within (w depth : Nat) (m : Memory) : Prop := ∀ c ∈ m, c.1 < depth ∧ fits w c.2

/-- The invariants of 10_state.md R26 that speak of one state, with what they rest on: the parameters meet their
constraints (00_scope.md R5 to R8), memory is in canonical form inside the array, the input fits (R101), and while `rst`
is asserted the registers hold what it forces (R100). -/
structure State.Inv (s : State) : Prop where
  params : s.params.wf
  memWf : s.mem.wf = true
  memWithin : s.mem.Within s.params.w s.params.memDepth
  len : s.len ≤ s.params.memDepth
  inputBound : s.inq.length ≤ s.params.inMax
  inputFits : ∀ v ∈ s.inq, fits s.params.w v
  inHead : s.inHead ≤ s.inLen
  ip : fits s.params.w s.ip
  reason : s.failReason = .none ↔ s.run ≠ .failed
  outFits : ∀ v ∈ s.out, fits s.params.w v
  steps : ∀ n, s.params.stepLimit = some n → s.steps ≤ n
  held : s.rst ≠ .released →
    s.ip = 0 ∧ s.run = .running ∧ s.failReason = .none ∧ s.inHead = 0 ∧ s.out = [] ∧ s.steps = 0

/-- The state after `k` steps of a run from `s` (40_engine_step.md R61), or why there are not so many. It is
`Host.Core.run` of this core (Laws/Ports.lean, `runSteps_eq_core_run`). -/
def runSteps : Nat → State → Result
  | 0, s => .next s
  | k + 1, s => andThen (step s) (runSteps k)

/-- `s` is in a run: `rst` is released and `RUN = Running` (40_engine_step.md R60). -/
abbrev State.Stepping (s : State) : Prop := s.rst = .released ∧ s.run = .running

/-- Every operand of `i` is one the machine can reach: each position-mode source names a valid cell, and so does the
write-target (40_engine_step.md R69, R70). -/
abbrev State.OperandsValid (s : State) (i : Instr) : Prop :=
  (∀ a ∈ i.sources, (sourceValue s a).isSome = true) ∧ ∀ d ∈ i.target, s.Valid d

/-- The same state on a core with another step limit. -/
def State.withLimit (s : State) (l : Option Nat) : State := { s with params := { s.params with stepLimit := l } }

/-- The same state on a core with another word width. -/
def State.withWidth (s : State) (w : Nat) : State := { s with params := { s.params with w := w } }

/-- The same state with other contents of the cells the memory lists (for comparing cells at or beyond `LEN`). -/
def State.withMem (s : State) (m : Memory) : State := { s with mem := m }

/-- Two memories agree on the cells below `n`. -/
abbrev Memory.AgreeBelow (n : Nat) (m m' : Memory) : Prop := ∀ a, a < n → m.read a = m'.read a

/-- An outcome with its next state changed by `f`. -/
def mapNext (f : State → State) : Result → Result
  | .next s => .next (f s)
  | .fault r => .fault r
  | .refused r => .refused r

end Sys2Proof.Machine
end

