-- ==== Sys2Proof/Certificates/Slice0/Obligations.lean ====
section
/-! DEFINITION. The statements for the provers, from the spec's numbered rules. OBLIGATIONS.json lists them. -/

open Sys2Proof Sys2Proof.Machine

/-! ## Encoding (30_encoding.md) -/

/-- Rows of 95_test_vectors.md section 2, every instruction among them and every rejection. -/
def Obligations.DecodeVectorsOfTheSpec : Prop :=
  decodeOpcode 1 = .ok (.add .position .position) ∧ decodeOpcode 101101 = .ok (.add .immediate .immediate) ∧
  decodeOpcode 1002 = .ok (.mul .position .immediate) ∧ decodeOpcode 10003 = .ok .inp ∧
  decodeOpcode 104 = .ok (.out .immediate) ∧ decodeOpcode 1005 = .ok (.jt .position .immediate) ∧
  decodeOpcode 1106 = .ok (.jf .immediate .immediate) ∧ decodeOpcode 107 = .ok (.lt .immediate .position) ∧
  decodeOpcode 1108 = .ok (.eq .immediate .immediate) ∧ decodeOpcode 10099 = .ok .hlt ∧
  decodeOpcode 11101 = .error .invalidParameterMode ∧ decodeOpcode 103 = .error .invalidParameterMode ∧
  decodeOpcode 2001 = .error .invalidParameterMode ∧ decodeOpcode 0 = .error .unknownOpcode ∧
  decodeOpcode 98 = .error .unknownOpcode ∧ decodeOpcode (-99) = .error .unknownOpcode

/-- 00_scope.md R9, 30_encoding.md R46: digits, their number, and the default 0 past the numeral. -/
def Obligations.DigitsPastTheNumeralAreZero : Prop :=
  ∀ q i : Nat, digit q i = q / 10 ^ i % 10 ∧ q < 10 ^ ndigits q ∧ (q ≠ 0 → 10 ^ (ndigits q - 1) ≤ q) ∧
    ndigits 0 = 0 ∧ (ndigits q ≤ i → digit q i = 0)

/-- 30_encoding.md R55: a negative word in the opcode position; as any parameter of any operation, or in a cell that is
read as data, it is a word like any other. -/
def Obligations.NegativeOpcodeWordsAreUnknown : Prop :=
  (∀ (s : State) (w : Int), s.Stepping → ¬ s.LimitReached → s.memRead s.ip = some w → w < 0 →
    step s = .next (s.countStep.fail .unknownOpcode)) ∧
  (∀ (w : Int) (op : Op) (ps rest : List Int), decodeOpcode w = .ok op → ps.length = op.arity →
    ∃ i, op.build (ps ++ rest) = some (i, rest) ∧ decode (w :: (ps ++ rest)) = .ok (i, rest) ∧ i.rawWords = ps) ∧
  ∀ (s : State) (v : Int), sourceValue s (.immediate v) = some v ∧
    ∀ a : Int, s.Valid a → s.mem.read a.toNat = v → sourceValue s (.position a) = some v

/-- 30_encoding.md R48: every digit of the quotient is checked, before the operation is looked up. -/
def Obligations.EveryModeDigitIsChecked : Prop :=
  (∀ (s : State) (w : Int) (i : Nat), s.Stepping → ¬ s.LimitReached → s.memRead s.ip = some w → 0 ≤ w →
    i < ndigits (w.toNat / 100) → digit (w.toNat / 100) i ≠ 0 → digit (w.toNat / 100) i ≠ 1 →
    step s = .next (s.countStep.fail .invalidParameterMode)) ∧
  decodeOpcode 299 = .error .invalidParameterMode ∧ decodeOpcode 250 = .error .invalidParameterMode ∧
  decodeOpcode 199 = .ok .hlt ∧ decodeOpcode 150 = .error .unknownOpcode

/-- 30_encoding.md R54: an operation outside the map fails as an opcode word, 0 included; any word at all is harmless as a
parameter of any operation and in a cell that is read as data. -/
def Obligations.OperationsOutsideTheMapFail : Prop :=
  (∀ (s : State) (w : Int), s.Stepping → ¬ s.LimitReached → s.memRead s.ip = some w → 0 ≤ w →
    (∀ i, digit (w.toNat / 100) i ≤ 1) → w.toNat % 100 ∉ operationCodes →
    step s = .next (s.countStep.fail .unknownOpcode)) ∧
  decodeOpcode 0 = .error .unknownOpcode ∧
  (∀ (w : Int) (op : Op) (ps rest : List Int), decodeOpcode w = .ok op → ps.length = op.arity →
    ∃ i, op.build (ps ++ rest) = some (i, rest) ∧ decode (w :: (ps ++ rest)) = .ok (i, rest) ∧ i.rawWords = ps) ∧
  ∀ (s : State) (v : Int), sourceValue s (.immediate v) = some v ∧
    ∀ a : Int, s.Valid a → s.mem.read a.toNat = v → sourceValue s (.position a) = some v

/-- 30_encoding.md R53: the legal opcode words, and those of them with no excess digits. -/
def Obligations.LegalOpcodeWordsAreExactlyThese : Prop :=
  (∀ w : Int, (∃ op, decodeOpcode w = .ok op) ↔
    0 ≤ w ∧ (∀ i, digit (w.toNat / 100) i = 0 ∨ digit (w.toNat / 100) i = 1) ∧ w.toNat % 100 ∈ operationCodes ∧
    (w.toNat % 100 ∈ [1, 2, 7, 8] → digit (w.toNat / 100) 2 = 0) ∧
    (w.toNat % 100 = 3 → digit (w.toNat / 100) 0 = 0)) ∧
  ∀ (w : Int) (op : Op), (w, op) ∈ canonicalWords ↔ decodeOpcode w = .ok op ∧ ndigits (w.toNat / 100) ≤ op.arity

/-- 30_encoding.md R58, R57: the words the encoder emits decode to the instruction, whatever follows them. -/
def Obligations.DecodeInvertsEncode : Prop :=
  ∀ (i : Instr) (rest : List Int), decode (encode i ++ rest) = .ok (i, rest)

/-- 30_encoding.md R49: excess digits 0 or 1 select nothing; an excess digit 2 to 9 fails. -/
def Obligations.ExcessModeDigitsSelectNothing : Prop :=
  (∀ (i : Instr) (e : Nat) (rest : List Int), (∀ k, digit e k ≤ 1) →
    decode (i.opcodeWordWith e :: (i.rawWords ++ rest)) = .ok (i, rest)) ∧
  (∀ (i : Instr) (e : Nat) (ws : List Int), (∃ k, 2 ≤ digit e k) →
    decode (i.opcodeWordWith e :: ws) = .error .invalidParameterMode) ∧
  (∀ w ∈ [104, 1104, 11104], decodeOpcode w = .ok (.out .immediate)) ∧
  (∀ w ∈ [99, 199, 1199], decodeOpcode w = .ok .hlt) ∧
  (∀ w ∈ [1101, 101101], decodeOpcode w = .ok (.add .immediate .immediate)) ∧
  ∀ w : Int, 0 ≤ w → (w.toNat % 100 ∈ [1, 2, 7, 8] ∧ digit (w.toNat / 100) 2 = 1 ∨
    w.toNat % 100 = 3 ∧ digit (w.toNat / 100) 0 = 1) → decodeOpcode w = .error .invalidParameterMode

/-- 30_encoding.md R42, R49, R53: whatever decodes is an encoding of the instruction, but for excess digits 0 or 1. -/
def Obligations.DecodedWordsAreTheEncodedOnes : Prop :=
  ∀ (ws : List Int) (i : Instr) (rest : List Int), decode ws = .ok (i, rest) →
    ∃ e, (∀ k, digit e k ≤ 1) ∧ ws = i.opcodeWordWith e :: (i.rawWords ++ rest)

/-! ## The step (40_engine_step.md) -/

/-- 40_engine_step.md R63: when the words at `IP` decode to `i`, the step is `i`'s execute stage with the step counted. -/
def Obligations.StepRunsTheDecodedInstruction : Prop :=
  ∀ (s : State) (n : Nat) (ws : List Int) (i : Instr) (rest : List Int), s.Stepping → ¬ s.LimitReached →
    s.readWords s.ip n = some ws → decode ws = .ok (i, rest) → step s = exec i s.countStep

/-- 30_encoding.md R43, 10_state.md R26: what is decoded from a memory of words that fit is well-formed. -/
def Obligations.DecodedInstructionsAreWellFormed : Prop :=
  ∀ (s : State) (a : Int) (n : Nat) (ws : List Int) (i : Instr) (rest : List Int), s.Inv →
    s.readWords a n = some ws → decode ws = .ok (i, rest) → i.wellFormed s.params = true

/-- 40_engine_step.md R60: a step is defined exactly while the core is running. That the model answers a fault where none
is defined is its own choice (log entry 8). -/
def Obligations.StepIsTotalExactlyWhileRunning : Prop :=
  ∀ s : State, (s.Stepping → ∃ t, step s = .next t) ∧ (¬ s.Stepping → ∃ f, step s = .fault f)

/-- 40_engine_step.md R62, 70_reset_and_hazards.md R100: no step after the run has ended, and none while `rst` is held.
That the model answers a fault there, and the faults' names, are its own choice (log entry 8). -/
def Obligations.NoStepAfterTheEndOrInReset : Prop :=
  ∀ s : State, (s.rst = .released → s.run = .halted → step s = .fault .halted) ∧
    (s.rst = .released → s.run = .failed → step s = .fault (.failed s.failReason)) ∧
    (s.rst ≠ .released → step s = .fault .heldInReset)

/-- 60_exceptions.md R88: the first cause met in the order of the stages is the one reported. -/
def Obligations.StepReportsTheFirstCause : Prop :=
  (∀ s : State, s.Stepping →
    (s.LimitReached → step s = .next (s.fail .stepLimitExceeded)) ∧
    (¬ s.LimitReached → ¬ s.Valid s.ip → step s = .next (s.countStep.fail .undefinedAddress)) ∧
    ∀ w, ¬ s.LimitReached → s.memRead s.ip = some w →
      (w < 0 → step s = .next (s.countStep.fail .unknownOpcode)) ∧
      (0 ≤ w → (∃ i, 2 ≤ digit (w.toNat / 100) i) → step s = .next (s.countStep.fail .invalidParameterMode)) ∧
      (0 ≤ w → (∀ i, digit (w.toNat / 100) i ≤ 1) →
        (w.toNat % 100 ∉ operationCodes → step s = .next (s.countStep.fail .unknownOpcode)) ∧
        (w.toNat % 100 = 99 → step s = .next s.countStep.halt) ∧
        (w.toNat % 100 ∈ [1, 2, 7, 8] ∧ digit (w.toNat / 100) 2 = 1 ∨
          w.toNat % 100 = 3 ∧ digit (w.toNat / 100) 0 = 1 →
          step s = .next (s.countStep.fail .invalidParameterMode))) ∧
      ∀ op, decodeOpcode w = .ok op →
        ((∃ j : Nat, j < op.arity ∧ ¬ s.Valid (s.ip + 1 + j)) → step s = .next (s.countStep.fail .undefinedAddress)) ∧
        ∀ ps i, s.fetchParams op.arity = some ps → op.build ps = some (i, []) →
          (¬ s.OperandsValid i → step s = .next (s.countStep.fail .undefinedAddress)) ∧
          (∀ a b dst x y, s.OperandsValid i → sourceValue s a = some x → sourceValue s b = some y →
            (i = .add a b dst ∧ ¬ fits s.params.w (x + y) ∨ i = .mul a b dst ∧ ¬ fits s.params.w (x * y)) →
            step s = .next (s.countStep.fail .arithmeticOverflow)) ∧
          (∀ dst, s.OperandsValid i → i = .inp dst → s.inHead = s.inLen →
            step s = .next (s.countStep.fail .inputExhausted))) ∧
  decodeOpcode 250 = .error .invalidParameterMode ∧ decodeOpcode (-250) = .error .unknownOpcode ∧
  decodeOpcode 103 = .error .invalidParameterMode ∧ decodeOpcode 10001 = .error .invalidParameterMode ∧
  decodeOpcode 10003 = .ok .inp

/-- 60_exceptions.md R90: a failing instruction has had no effect. -/
def Obligations.FailuresArePrecise : Prop :=
  ∀ s t : State, step s = .next t → t.run = .failed →
    t.mem = s.mem ∧ t.ip = s.ip ∧ t.inHead = s.inHead ∧ t.out = s.out ∧ t.failReason ≠ .none ∧
    t = { s with run := .failed, failReason := t.failReason, steps := t.steps } ∧
    (s.LimitReached ∧ t.failReason = .stepLimitExceeded ∧ t.steps = s.steps ∨
      ¬ s.LimitReached ∧ t.failReason ≠ .stepLimitExceeded ∧ t.steps = s.steps + 1)

/-- 45_halt.md R84, R85: `Halted` is reached only by a HLT word at `IP`, and then nothing else changes. -/
def Obligations.HaltedOnlyByAHaltWord : Prop :=
  ∀ s t : State, step s = .next t → t.run = .halted →
    ∃ w, s.memRead s.ip = some w ∧ 0 ≤ w ∧ w.toNat % 100 = 99 ∧ (∀ i, digit (w.toNat / 100) i ≤ 1) ∧
      t = { s with run := .halted, steps := s.steps + 1 }

/-- 10_state.md R20, 40_engine_step.md R64: `STEPS` counts every step the limit does not refuse, HLT's and failing ones
too. Where `STEP_LIMIT = none` R20 lets a model omit `STEPS`; this one keeps it (log entry 11). -/
def Obligations.StepsCountsTheStepsBegun : Prop :=
  ∀ s t : State, step s = .next t →
    (s.LimitReached → t.steps = s.steps) ∧ (¬ s.LimitReached → t.steps = s.steps + 1)

/-- 40_engine_step.md R64: the step limit lets at most `N` steps run, those exactly as with no limit, and then fails. -/
def Obligations.StepLimitCutsTheRunExactly : Prop :=
  (∀ u : State, u.Stepping → u.LimitReached → step u = .next (u.fail .stepLimitExceeded)) ∧
  (∀ u t : State, ¬ u.LimitReached → step u = .next t → t.steps = u.steps + 1) ∧
  ∀ (s : State) (n : Nat), s.params.stepLimit = none → s.steps = 0 → s.Stepping →
    (∀ k, k ≤ n → runSteps k (s.withLimit (some n)) = mapNext (fun t => t.withLimit (some n)) (runSteps k s)) ∧
    ∀ t : State, runSteps n s = .next t → t.run = .running →
      runSteps (n + 1) (s.withLimit (some n)) = .next ((t.withLimit (some n)).fail .stepLimitExceeded)

/-! ## Invariants (10_state.md R26), reset, load and boot (70_reset_and_hazards.md) -/

/-- The invariant of the model that stands for 10_state.md R26 is kept by every step from every state. -/
def Obligations.StepKeepsTheInvariants : Prop :=
  ∀ s t : State, s.Inv → step s = .next t → t.Inv

/-- The invariants hold right after reset, of the default core and of any other. `LEN`, `INQ` and `MEM` have there the
values of the model's choice (log entries 4, 5, 6). -/
def Obligations.ResetSatisfiesTheInvariants : Prop :=
  State.reset.Inv ∧ ∀ p : Params, p.wf → (State.resetWith p).Inv

/-- 70_reset_and_hazards.md R100 to R102: what the host may do to the core keeps the invariants. Between reset and load
R100 leaves `MEM`, `LEN`, `INQ` unspecified: that asserting `rst` keeps them (log entry 18), that a load keeps the cells at
or beyond `LEN` (log entry 17) and that a second load is taken (log entry 19) are the model's own choices. -/
def Obligations.HostTransactionsKeepTheInvariants : Prop :=
  ∀ (s t : State) (ws : List Int), s.Inv →
    s.assertRst.Inv ∧ (s.loadProgram ws = .next t → t.Inv) ∧ (s.loadInput ws = .next t → t.Inv) ∧
    (s.releaseRst = .next t → t.Inv)

/-- 10_state.md R26, for every state of every run of every program and input. -/
def Obligations.RunsKeepTheStatedInvariants : Prop :=
  ∀ (s s0 t : State) (p xs : List Int) (k : Nat), s.Inv → s.boot p xs = .next s0 → runSteps k s0 = .next t →
    (t.len ≤ t.params.memDepth ∧ t.params = s.params ∧ t.len = p.length ∧ t.inq = xs ∧ t.inLen = xs.length) ∧
    t.inHead ≤ t.inLen ∧
    (∀ a, a < t.len → fits t.params.w (t.mem.read a)) ∧
    fits t.params.w t.ip ∧
    (∀ (u : State) (j n : Nat), k = j + 1 → runSteps j s0 = .next u → t.run = .running → n ≤ 3 →
      t.ip = u.ip + 1 + n → 0 < t.ip ∧ t.ip ≤ t.len + 3) ∧
    (t.failReason = .none ↔ t.run ≠ .failed) ∧
    (∀ (u : State) (j : Nat), j ≤ k → runSteps j s0 = .next u → u.out <+: t.out) ∧
    (∀ v ∈ t.out, fits t.params.w v) ∧
    ∀ n, t.params.stepLimit = some n → t.steps ≤ n

/-- 10_state.md R25: the boot sequence with a program and an input that fit gives the start state of the rule's table. -/
def Obligations.BootGivesTheStartState : Prop :=
  ∀ (s : State) (p xs : List Int), s.mem.wf = true → p.length ≤ s.params.memDepth → xs.length ≤ s.params.inMax →
    (∀ v ∈ p, fits s.params.w v) → (∀ v ∈ xs, fits s.params.w v) →
    ∃ t, s.boot p xs = .next t ∧ t.rst = .released ∧ t.ip = 0 ∧ t.run = .running ∧ t.failReason = .none ∧
      t.len = p.length ∧ (∀ (a : Nat) (h : a < p.length), t.mem.read a = p[a]) ∧ t.inq = xs ∧ t.inLen = xs.length ∧
      t.inHead = 0 ∧ t.out = [] ∧ t.steps = 0 ∧ t.params = s.params

/-- 70_reset_and_hazards.md R100: what asserting `rst` forces and what it does not clear. The field `rst`, the kept
contents and the fault are the model's own choice (log entries 7, 8, 18). -/
def Obligations.AssertingRstForcesTheRegisters : Prop :=
  ∀ s : State, s.assertRst =
    { params := s.params, rst := .asserted false false, mem := s.mem, len := s.len, ip := 0, run := .running,
      failReason := .none, inq := s.inq, inHead := 0, out := [], steps := 0 } ∧
    step s.assertRst = .fault .heldInReset

/-- 70_reset_and_hazards.md R101, R102, R104, R106: what the host must not do is refused: a load or a release outside
reset, a program or an input too long or with a word too wide, a release with nothing or only a part loaded. That it is
refused, and the refusals' names, are the model's own choice (log entry 12). -/
def Obligations.ForbiddenHostMovesAreRefused : Prop :=
  (∀ s : State, s.rst = .released →
    s.releaseRst = .refused .releaseOutsideReset ∧
    ∀ ws : List Int, s.loadProgram ws = .refused .loadOutsideReset ∧ s.loadInput ws = .refused .loadOutsideReset) ∧
  (∀ (s : State) (pl il : Bool) (ws : List Int), s.rst = .asserted pl il →
    (s.params.memDepth < ws.length → s.loadProgram ws = .refused .programTooLong) ∧
    (ws.length ≤ s.params.memDepth → (∃ v ∈ ws, ¬ fits s.params.w v) →
      s.loadProgram ws = .refused .programWordTooWide) ∧
    (s.params.inMax < ws.length → s.loadInput ws = .refused .inputTooLong) ∧
    (ws.length ≤ s.params.inMax → (∃ v ∈ ws, ¬ fits s.params.w v) → s.loadInput ws = .refused .inputWordTooWide)) ∧
  (∀ (s : State) (p xs : List Int),
    (s.params.memDepth < p.length → s.boot p xs = .refused .programTooLong) ∧
    (p.length ≤ s.params.memDepth → (∃ v ∈ p, ¬ fits s.params.w v) → s.boot p xs = .refused .programWordTooWide) ∧
    (p.length ≤ s.params.memDepth → (∀ v ∈ p, fits s.params.w v) →
      (s.params.inMax < xs.length → s.boot p xs = .refused .inputTooLong) ∧
      (xs.length ≤ s.params.inMax → (∃ v ∈ xs, ¬ fits s.params.w v) → s.boot p xs = .refused .inputWordTooWide))) ∧
  (∀ (s : State) (pl il : Bool), s.rst = .asserted pl il → ¬ (pl = true ∧ il = true) →
    s.releaseRst = .refused .releaseBeforeLoad) ∧
  ∀ s : State, s.assertRst.releaseRst = .refused .releaseBeforeLoad ∧
    (∀ (ws : List Int) (t : State), s.assertRst.loadProgram ws = .next t →
      t.releaseRst = .refused .releaseBeforeLoad) ∧
    ∀ (ws : List Int) (t : State), s.assertRst.loadInput ws = .next t → t.releaseRst = .refused .releaseBeforeLoad

/-- 10_state.md R15, R16, R24: the codes on the status port. -/
def Obligations.StatusPortCodes : Prop :=
  (RunState.code .running = 0 ∧ RunState.code .halted = 1 ∧ RunState.code .failed = 2) ∧
  (FailReason.code .none = 0 ∧ FailReason.code .unknownOpcode = 1 ∧ FailReason.code .invalidParameterMode = 2 ∧
    FailReason.code .undefinedAddress = 3 ∧ FailReason.code .inputExhausted = 4 ∧
    FailReason.code .stepLimitExceeded = 5 ∧ FailReason.code .arithmeticOverflow = 6) ∧
  ∀ s : State, s.statusPort = (s.run.code, s.failReason.code) ∧ s.statusPort.1 ≠ 3 ∧ s.statusPort.2 ≠ 7

/-- 10_state.md R24: the debug read port shows `MEM[a]` for `0 <= a < LEN` and `IP`, and only when the run has ended:
nothing while `RUN = Running` and nothing while `rst` is asserted (70_reset_and_hazards.md R106). -/
def Obligations.DebugPortWorksOnlyAfterTheRun : Prop :=
  ∀ (s : State) (a : Int),
    (s.rst ≠ .released ∨ s.run = .running → s.debugRead a = none ∧ s.debugIp = none) ∧
    (s.rst = .released → s.run ≠ .running → s.debugIp = some s.ip ∧
      (s.Valid a → s.debugRead a = some (s.mem.read a.toNat)) ∧ (¬ s.Valid a → s.debugRead a = none))

/-! ## The instructions (41_arithmetic.md to 45_halt.md): results, with what is left unchanged -/

/-- 41_arithmetic.md R73, the execute and advance stages of ADD. -/
def Obligations.AddStoresTheSum : Prop :=
  ∀ (s : State) (a b : Src) (dst x y : Int), s.mem.wf = true → sourceValue s a = some x → sourceValue s b = some y →
    s.Valid dst → fits s.params.w (x + y) →
    ∃ t, exec (.add a b dst) s = .next t ∧ t = { s with mem := t.mem, ip := s.ip + 4 } ∧
      t.mem.read dst.toNat = x + y ∧ ∀ c, c ≠ dst.toNat → t.mem.read c = s.mem.read c

/-- 41_arithmetic.md R74, the execute and advance stages of MUL. -/
def Obligations.MulStoresTheProduct : Prop :=
  ∀ (s : State) (a b : Src) (dst x y : Int), s.mem.wf = true → sourceValue s a = some x → sourceValue s b = some y →
    s.Valid dst → fits s.params.w (x * y) →
    ∃ t, exec (.mul a b dst) s = .next t ∧ t = { s with mem := t.mem, ip := s.ip + 4 } ∧
      t.mem.read dst.toNat = x * y ∧ ∀ c, c ≠ dst.toNat → t.mem.read c = s.mem.read c

/-- 44_compare.md R82, the execute and advance stages of LT. -/
def Obligations.LtStoresTheComparison : Prop :=
  ∀ (s : State) (a b : Src) (dst x y : Int), s.mem.wf = true → sourceValue s a = some x → sourceValue s b = some y →
    s.Valid dst →
    ∃ t, exec (.lt a b dst) s = .next t ∧ t = { s with mem := t.mem, ip := s.ip + 4 } ∧
      t.mem.read dst.toNat = (if x < y then 1 else 0) ∧ ∀ c, c ≠ dst.toNat → t.mem.read c = s.mem.read c

/-- 44_compare.md R83, the execute and advance stages of EQ. -/
def Obligations.EqStoresTheComparison : Prop :=
  ∀ (s : State) (a b : Src) (dst x y : Int), s.mem.wf = true → sourceValue s a = some x → sourceValue s b = some y →
    s.Valid dst →
    ∃ t, exec (.eq a b dst) s = .next t ∧ t = { s with mem := t.mem, ip := s.ip + 4 } ∧
      t.mem.read dst.toNat = (if x = y then 1 else 0) ∧ ∀ c, c ≠ dst.toNat → t.mem.read c = s.mem.read c

/-- 42_io.md R77, the execute and advance stages of IN where a value remains. -/
def Obligations.InStoresTheNextInput : Prop :=
  ∀ (s : State) (dst : Int) (h : s.inHead < s.inLen), s.mem.wf = true → s.Valid dst →
    ∃ t, exec (.inp dst) s = .next t ∧ t = { s with mem := t.mem, inHead := s.inHead + 1, ip := s.ip + 2 } ∧
      t.mem.read dst.toNat = s.inq[s.inHead]'h ∧ ∀ c, c ≠ dst.toNat → t.mem.read c = s.mem.read c

/-- 42_io.md R78, the execute and advance stages of OUT. -/
def Obligations.OutAppendsItsOperand : Prop :=
  ∀ (s : State) (a : Src) (x : Int), sourceValue s a = some x →
    exec (.out a) s = .next { s with out := s.out ++ [x], ip := s.ip + 2 }

/-- 43_jumps.md R79, the execute and advance stages of JT. -/
def Obligations.JtJumpsOnAnyNonzeroWord : Prop :=
  ∀ (s : State) (c a : Src) (x y : Int), sourceValue s c = some x → sourceValue s a = some y →
    (x ≠ 0 → exec (.jt c a) s = .next { s with ip := y }) ∧
    (x = 0 → exec (.jt c a) s = .next { s with ip := s.ip + 3 })

/-- 43_jumps.md R80, the execute and advance stages of JF. -/
def Obligations.JfJumpsOnZeroOnly : Prop :=
  ∀ (s : State) (c a : Src) (x y : Int), sourceValue s c = some x → sourceValue s a = some y →
    (x = 0 → exec (.jf c a) s = .next { s with ip := y }) ∧
    (x ≠ 0 → exec (.jf c a) s = .next { s with ip := s.ip + 3 })

/-- 45_halt.md R84: the whole of HLT, in every state. -/
def Obligations.HltHaltsInPlace : Prop :=
  ∀ s : State, exec .hlt s = .next { s with run := .halted }

/-- 41_arithmetic.md R75: exact results; one that does not fit fails, with nothing written but the failure. -/
def Obligations.ResultsAreExactOrOverflow : Prop :=
  ∀ (s : State) (a b : Src) (dst x y r : Int) (i : Instr), s.mem.wf = true → sourceValue s a = some x →
    sourceValue s b = some y → s.Valid dst → (i = .add a b dst ∧ r = x + y ∨ i = .mul a b dst ∧ r = x * y) →
    (fits s.params.w r → ∃ t, exec i s = .next t ∧ t.run = s.run ∧ t.mem.read dst.toNat = r) ∧
    (¬ fits s.params.w r → exec i s = .next { s with run := .failed, failReason := .arithmeticOverflow })

/-- 41_arithmetic.md R76: the summary of the integer laws, row by row. -/
def Obligations.SummaryOfTheIntegerLaws : Prop :=
  (∀ (w : Nat) (x y : Int),
    (¬ (x + y > maxW w ∨ x + y < minW w) → aluAdd w x y = some (x + y)) ∧
    ((x + y > maxW w ∨ x + y < minW w) → aluAdd w x y = none) ∧
    (¬ (x * y > maxW w ∨ x * y < minW w) → aluMul w x y = some (x * y)) ∧
    ((x * y > maxW w ∨ x * y < minW w) → aluMul w x y = none)) ∧
  (∀ x y : Int, lessWord x y = (if x < y then 1 else 0) ∧ equalWord x y = (if x = y then 1 else 0)) ∧
  (∀ x : Int, (jumpsIfTrue x = true ↔ x ≠ 0) ∧ (jumpsIfFalse x = true ↔ x = 0)) ∧
  ∀ (s : State) (n : Nat), s.params.wf → s.len ≤ s.params.memDepth → s.Valid s.ip → n ≤ 3 →
    (s.advance n).ip = s.ip + 1 + n ∧ fits s.params.w (s.ip + 1 + n)

/-- 20_memory.md R33: a negative word used as an address, as a position-mode source or a write-target of any
instruction, or in `IP`. -/
def Obligations.NegativeAddressesFail : Prop :=
  ∀ (s : State) (a : Int), a < 0 →
    (∀ i : Instr, .position a ∈ i.sources ∨ i.target = some a → exec i s = .next (s.fail .undefinedAddress)) ∧
    (s.Stepping → ¬ s.LimitReached → s.ip = a → step s = .next (s.countStep.fail .undefinedAddress))

/-- 40_engine_step.md R69: an invalid position-mode target fails a jump whether or not it would be taken. -/
def Obligations.JumpTargetsAreAlwaysResolved : Prop :=
  ∀ (s : State) (c : Src) (a : Int), ¬ s.Valid a →
    exec (.jt c (.position a)) s = .next (s.fail .undefinedAddress) ∧
    exec (.jf c (.position a)) s = .next (s.fail .undefinedAddress)

/-- 43_jumps.md R81: the target is not checked at the jump; a bad one fails at the next fetch, `IP` holding it. -/
def Obligations.BadJumpTargetsFailAtTheNextFetch : Prop :=
  ∀ (s : State) (x y : Int) (c a : Src) (i : Instr), s.Stepping → sourceValue s c = some x → sourceValue s a = some y →
    (i = .jt c a ∧ x ≠ 0 ∨ i = .jf c a ∧ x = 0) → ¬ s.Valid y → ¬ s.LimitReached →
    exec i s = .next (s.setIp y) ∧ (s.setIp y).ip = y ∧
      step (s.setIp y) = .next ((s.setIp y).countStep.fail .undefinedAddress) ∧
      ((s.setIp y).countStep.fail .undefinedAddress).ip = y

/-- 40_engine_step.md R72, 10_state.md R14: where `IP` goes when an instruction completes and the run goes on. -/
def Obligations.OnlyJumpsLeaveTheDefaultAdvance : Prop :=
  ∀ (i : Instr) (s t : State), exec i s = .next t → t.run = .running →
    ((∀ c a, i ≠ .jt c a ∧ i ≠ .jf c a) → t.ip = s.ip + 1 + i.rawWords.length) ∧
    ∀ c a, i = .jt c a ∨ i = .jf c a → t.ip = s.ip + 3 ∨ sourceValue s a = some t.ip

/-- 20_memory.md R27, R32, 41_arithmetic.md R73: the frame of ADD, MUL, IN, LT, EQ. The only cell that can change is the
one their write-target names; of the registers, `IP`, `IN_HEAD` (IN only), and on a failure `RUN` and `FAIL_REASON`. -/
def Obligations.FrameOfTheStoringInstructions : Prop :=
  ∀ (i : Instr) (s t : State) (dst : Int), i.target = some dst → s.mem.wf = true → exec i s = .next t →
    (∀ c : Nat, (c : Int) ≠ dst → t.mem.read c = s.mem.read c) ∧
    (¬ s.Valid dst → t.mem = s.mem) ∧
    t.params = s.params ∧ t.rst = s.rst ∧ t.len = s.len ∧ t.inq = s.inq ∧ t.out = s.out ∧ t.steps = s.steps ∧
    ((∀ d, i ≠ .inp d) → t.inHead = s.inHead) ∧
    (t.run = s.run ∧ t.failReason = s.failReason ∨ t.run = .failed ∧ t.mem = s.mem ∧ t.ip = s.ip ∧ t.inHead = s.inHead)

/-- 20_memory.md R27, 42_io.md R78, 43_jumps.md R79, R80, 45_halt.md R84: the frame of OUT, JT, JF, HLT, which store
nothing. Of the registers, `IP`, `OUT` (OUT only), `RUN` (HLT only), and on a failure `RUN` and `FAIL_REASON`. -/
def Obligations.FrameOfTheOtherInstructions : Prop :=
  ∀ (i : Instr) (s t : State), i.target = none → exec i s = .next t →
    (∀ c, t.mem.read c = s.mem.read c) ∧ t.mem = s.mem ∧
    t.params = s.params ∧ t.rst = s.rst ∧ t.len = s.len ∧ t.inq = s.inq ∧ t.inHead = s.inHead ∧ t.steps = s.steps ∧
    ((∀ a, i ≠ .out a) → t.out = s.out) ∧
    (i = .hlt → t.ip = s.ip ∧ t.failReason = s.failReason) ∧
    (i ≠ .hlt → t.run = s.run ∧ t.failReason = s.failReason ∨ t.run = .failed ∧ t.ip = s.ip ∧ t.out = s.out)

/-- 10_state.md R19, R24: the output port carries one word for an OUT that completes, and nothing else ever. -/
def Obligations.OutputPortCarriesTheOutWords : Prop :=
  ∀ (i : Instr) (s t : State), exec i s = .next t →
    (∀ a, i = .out a → outputPort s t = (sourceValue s a).toList) ∧
    ((∀ a, i ≠ .out a) → outputPort s t = [])

/-- 20_memory.md R41: the word any storing instruction (ADD, MUL, LT, EQ, IN) writes to any valid cell, its own words
included, is what that cell holds after the step; the next instruction is fetched past the words as they were decoded, and
fetches the new word, as its opcode word or as a parameter. -/
def Obligations.StoresAreSeenByTheNextFetch : Prop :=
  ∀ (s : State) (i : Instr) (n : Nat) (ws rest : List Int) (dst v : Int), s.mem.wf = true → s.Stepping →
    ¬ s.LimitReached → s.readWords s.ip n = some ws → decode ws = .ok (i, rest) → s.Valid dst →
    ((∃ a b x y, sourceValue s a = some x ∧ sourceValue s b = some y ∧
        (i = .add a b dst ∧ v = x + y ∧ fits s.params.w v ∨ i = .mul a b dst ∧ v = x * y ∧ fits s.params.w v ∨
          i = .lt a b dst ∧ v = (if x < y then 1 else 0) ∨ i = .eq a b dst ∧ v = (if x = y then 1 else 0))) ∨
      i = .inp dst ∧ ∃ h : s.inHead < s.inLen, v = s.inq[s.inHead]'h) →
    ∃ t, step s = .next t ∧ t.Stepping ∧ t.ip = s.ip + 1 + i.rawWords.length ∧ t.memRead dst = some v ∧
      (dst = t.ip → ¬ t.LimitReached → step t = runWord v t.countStep) ∧
      ∀ (m j : Nat) (ps : List Int), t.fetchParams m = some ps → j < m → dst = t.ip + 1 + j → ps[j]? = some v

/-! ## Whole-machine rules -/

/-- 20_memory.md R28, 70_reset_and_hazards.md R105, 93_implementation_defined.md U10: cells at or beyond `LEN` are never
read and never written. Two machines that differ only in such cells step alike. -/
def Obligations.CellsBeyondLenDoNotMatter : Prop :=
  ∀ (s t : State) (m : Memory), s.mem.wf = true → m.wf = true → Memory.AgreeBelow s.len s.mem m → step s = .next t →
    ∃ m', step (s.withMem m) = .next (t.withMem m') ∧ Memory.AgreeBelow t.len t.mem m' ∧
      ∀ c, s.len ≤ c → t.mem.read c = s.mem.read c ∧ m'.read c = m.read c

/-- 00_scope.md R5: a run without `ArithmeticOverflow` is the same run on wider words, so its results are those of
unbounded integers. -/
def Obligations.WiderWordsGiveTheSameRun : Prop :=
  ∀ (s t : State) (w : Nat) (k : Nat), s.Inv → s.params.w ≤ w → runSteps k s = .next t →
    t.failReason ≠ .arithmeticOverflow → runSteps k (s.withWidth w) = .next (t.withWidth w)
end

