-- ==== Sys2Proof/Laws/Digits.lean ====
section
/-! SUPPORT. Decimal digits (00_scope.md R9) and the legality test over them (30_encoding.md R48). -/

namespace Sys2Proof

@[simp] theorem digit_zero (q : Nat) : digit q 0 = q % 10 := by simp [digit]

theorem digit_succ (q i : Nat) : digit q (i + 1) = digit (q / 10) i := by
  simp [digit, Nat.pow_succ', Nat.div_div_eq_div_mul]

@[simp] theorem zero_digit (i : Nat) : digit 0 i = 0 := by simp [digit]

theorem lt_pow_ndigitsFuel {fuel q : Nat} (h : q < 2 ^ fuel) : q < 10 ^ ndigitsFuel fuel q := by
  induction fuel generalizing q with
  | zero => simpa [ndigitsFuel] using h
  | succ f ih =>
    unfold ndigitsFuel
    split
    · simp_all
    · have := ih (q := q / 10) (by omega)
      rw [Nat.pow_succ]
      omega

/-- `q` has at most `ndigits q` decimal digits. -/
theorem lt_pow_ndigits (q : Nat) : q < 10 ^ ndigits q := lt_pow_ndigitsFuel Nat.lt_log2_self

/-- Past its numeral a number has digits 0 (00_scope.md R9). -/
theorem digit_of_ndigits_le {q i : Nat} (h : ndigits q ≤ i) : digit q i = 0 := by
  have : q < 10 ^ i := (lt_pow_ndigits q).trans_le (Nat.pow_le_pow_right (by omega) h)
  simp [digit, Nat.div_eq_of_lt this]

/-- The test over the digits of the numeral is the test over all digits. -/
theorem modesLegal_iff (q : Nat) : modesLegal q = true ↔ ∀ i, digit q i ≤ 1 := by
  simp only [modesLegal, List.all_eq_true, List.mem_range, decide_eq_true_eq]
  refine ⟨fun h i => ?_, fun h i _ => h i⟩
  by_cases hi : i < ndigits q
  · exact h i hi
  · simp [digit_of_ndigits_le (Nat.le_of_not_lt hi)]

theorem modesLegal_eq_false_iff (q : Nat) : modesLegal q = false ↔ ∃ i, 2 ≤ digit q i := by
  rw [← Bool.not_eq_true, modesLegal_iff]
  simp only [not_forall, Nat.not_le]
  exact Iff.rfl

/-- Legality digit by digit, from the lowest. -/
theorem digits_le_one_step (q : Nat) : (∀ i, digit q i ≤ 1) ↔ q % 10 ≤ 1 ∧ ∀ i, digit (q / 10) i ≤ 1 := by
  refine ⟨fun h => ⟨by simpa using h 0, fun i => by simpa [digit_succ] using h (i + 1)⟩, fun h i => ?_⟩
  cases i with
  | zero => simpa using h.1
  | succ i => rw [digit_succ]; exact h.2 i

theorem modeOf_eq_position_iff (q i : Nat) : modeOf q i = .position ↔ digit q i = 0 := by
  unfold modeOf; split <;> simp_all

end Sys2Proof
end

