-- ==== Sys2Proof/Laws/Decode.lean ====
section
/-! SUPPORT. What the decoder answers: one lemma per test of 30_encoding.md R57, and the small lemmas of the encoder. -/

namespace Sys2Proof

theorem decodeOpcode_neg {w : Int} (h : w < 0) : decodeOpcode w = .error .unknownOpcode := by
  simp [decodeOpcode, h]

theorem decodeOpcode_badMode {w : Int} (h : 0 ≤ w) (hd : ∃ i, 2 ≤ digit (w.toNat / 100) i) :
    decodeOpcode w = .error .invalidParameterMode := by
  rw [decodeOpcode, if_neg (by omega), if_pos ((modesLegal_eq_false_iff _).2 hd)]

theorem decodeOpcode_legal {w : Int} (h : 0 ≤ w) (hd : ∀ i, digit (w.toNat / 100) i ≤ 1) :
    decodeOpcode w = decodeOperation (w.toNat % 100) (w.toNat / 100) := by
  rw [decodeOpcode, if_neg (by omega), if_neg (by simp [(modesLegal_iff _).2 hd])]

/-- A word that decodes is non-negative with legal digits, and its operation's row gives the result. -/
theorem decodeOpcode_ok {w : Int} {op : Op} (h : decodeOpcode w = .ok op) :
    0 ≤ w ∧ (∀ i, digit (w.toNat / 100) i ≤ 1) ∧ decodeOperation (w.toNat % 100) (w.toNat / 100) = .ok op := by
  by_cases hw : w < 0
  · rw [decodeOpcode_neg hw] at h; cases h
  by_cases hd : ∀ i, digit (w.toNat / 100) i ≤ 1
  · exact ⟨by omega, hd, by rw [← decodeOpcode_legal (by omega) hd]; exact h⟩
  · simp only [not_forall, Nat.not_le] at hd
    rw [decodeOpcode_badMode (by omega) hd] at h; cases h

theorem decodeOperation_unknown {n : Nat} (q : Nat) (h : n = 0 ∨ (8 < n ∧ n ≠ 99)) :
    decodeOperation n q = .error .unknownOpcode := by
  unfold decodeOperation
  split <;> first | omega | rfl

/-- The rows of the opcode map, read from the result. -/
theorem decodeOperation_ok {n q : Nat} {op : Op} (h : decodeOperation n q = .ok op) :
    (n = 1 ∧ digit q 2 ≠ 1 ∧ op = .add (modeOf q 0) (modeOf q 1)) ∨
    (n = 2 ∧ digit q 2 ≠ 1 ∧ op = .mul (modeOf q 0) (modeOf q 1)) ∨
    (n = 3 ∧ digit q 0 ≠ 1 ∧ op = .inp) ∨
    (n = 4 ∧ op = .out (modeOf q 0)) ∨
    (n = 5 ∧ op = .jt (modeOf q 0) (modeOf q 1)) ∨
    (n = 6 ∧ op = .jf (modeOf q 0) (modeOf q 1)) ∨
    (n = 7 ∧ digit q 2 ≠ 1 ∧ op = .lt (modeOf q 0) (modeOf q 1)) ∨
    (n = 8 ∧ digit q 2 ≠ 1 ∧ op = .eq (modeOf q 0) (modeOf q 1)) ∨
    (n = 99 ∧ op = .hlt) := by
  unfold decodeOperation at h
  split at h <;> first | (split at h <;> simp_all) | simp_all

@[simp] theorem Src.ofMode_position (v : Int) : Src.ofMode .position v = .position v := rfl
@[simp] theorem Src.ofMode_immediate (v : Int) : Src.ofMode .immediate v = .immediate v := rfl
@[simp] theorem Src.raw_ofMode (m : Mode) (v : Int) : (Src.ofMode m v).raw = v := by cases m <;> rfl
@[simp] theorem Src.modeDigit_le (a : Src) : a.modeDigit ≤ 1 := by cases a <;> simp [Src.modeDigit]

theorem Src.ofMode_wellFormed (p : Params) (m : Mode) (v : Int) :
    (Src.ofMode m v).wellFormed p = decide (fits p.w v) := by
  cases m <;> rfl

/-- A source is made again from its mode digit and its raw word. -/
theorem Src.ofMode_modeOf {q i : Nat} {a : Src} (h : digit q i = a.modeDigit) : Src.ofMode (modeOf q i) a.raw = a := by
  cases a <;> simp_all [Src.modeDigit, modeOf, Src.raw, Src.ofMode]

/-- The mode digit of a source made from digit `i`, where that digit is legal. -/
theorem Src.modeDigit_ofMode {q i : Nat} (v : Int) (h : digit q i ≤ 1) :
    (Src.ofMode (modeOf q i) v).modeDigit = digit q i := by
  unfold modeOf
  split
  · simp_all [Src.ofMode, Src.modeDigit]
  · simp only [Src.ofMode, Src.modeDigit]; omega

theorem opcodeWordWith_nonneg (e : Nat) (i : Instr) : 0 ≤ i.opcodeWordWith e := Int.natCast_nonneg _

theorem opcodeWordWith_operation (e : Nat) (i : Instr) : (i.opcodeWordWith e).toNat % 100 = i.operation := by
  have : i.operation < 100 := by cases i <;> simp [Instr.operation]
  simp only [Instr.opcodeWordWith, Int.toNat_natCast]
  omega

theorem opcodeWordWith_quotient (e : Nat) (i : Instr) :
    (i.opcodeWordWith e).toNat / 100 = i.modeDigits + 10 ^ i.rawWords.length * e := by
  have : i.operation < 100 := by cases i <;> simp [Instr.operation]
  simp only [Instr.opcodeWordWith, Int.toNat_natCast]
  omega

end Sys2Proof
end

