-- ==== Sys2Proof/Laws/Memory.lean ====
section
/-! SUPPORT. The laws of the memory array: read after write, the canonical form is kept, canonical memories with equal
contents are equal, and what a whole load leaves. -/

namespace Sys2Proof.Machine

@[simp] theorem Memory.read_nil (a : Nat) : Memory.read [] a = 0 := rfl

theorem Memory.read_cons (k : Nat) (u : Int) (rest : Memory) (a : Nat) :
    Memory.read ((k, u) :: rest) a = if k = a then u else Memory.read rest a := rfl

/-! ## The canonical form -/

theorem Memory.wfFrom_cons (lo k : Nat) (u : Int) (rest : Memory) :
    Memory.wfFrom lo ((k, u) :: rest) = true ↔ lo ≤ k ∧ u ≠ 0 ∧ Memory.wfFrom (k + 1) rest = true := by
  simp only [Memory.wfFrom, Bool.and_eq_true, decide_eq_true_eq, and_assoc]
  rfl

theorem Memory.wfFrom_mono {m : Memory} {lo lo' : Nat} (h : lo' ≤ lo) (hm : Memory.wfFrom lo m = true) :
    Memory.wfFrom lo' m = true := by
  cases m with
  | nil => rfl
  | cons c rest =>
    rw [Memory.wfFrom_cons] at hm ⊢
    exact ⟨h.trans hm.1, hm.2⟩

/-- Below where a canonical memory starts it reads as unlisted. -/
theorem Memory.read_below {m : Memory} {lo a : Nat} (hm : Memory.wfFrom lo m = true) (h : a < lo) : m.read a = 0 := by
  induction m generalizing lo with
  | nil => rfl
  | cons c rest ih =>
    obtain ⟨k, u⟩ := c
    rw [Memory.wfFrom_cons] at hm
    rw [Memory.read_cons, if_neg (by omega)]
    exact ih hm.2.2 (by omega)

theorem Memory.wfFrom_write {m : Memory} {lo a : Nat} (v : Int) (h : lo ≤ a) (hm : Memory.wfFrom lo m = true) :
    Memory.wfFrom lo (m.write a v) = true := by
  induction m generalizing lo with
  | nil =>
    by_cases hv : v = 0 <;> simp [Memory.write, Memory.wfFrom, unlistedWord, hv, h]
  | cons c rest ih =>
    obtain ⟨k, u⟩ := c
    rw [Memory.wfFrom_cons] at hm
    obtain ⟨h1, h2, h3⟩ := hm
    unfold Memory.write unlistedWord
    split
    · split
      · exact (Memory.wfFrom_cons _ _ _ _).2 ⟨h1, h2, h3⟩
      · simp only [Memory.wfFrom_cons]
        exact ⟨h, ‹_›, by omega, h2, h3⟩
    · split
      · split
        · exact Memory.wfFrom_mono (by omega) h3
        · simp only [Memory.wfFrom_cons]
          subst a
          exact ⟨h, ‹_›, h3⟩
      · rw [Memory.wfFrom_cons]
        exact ⟨h1, h2, ih (by omega) h3⟩

/-- A write keeps the canonical form. -/
theorem Memory.wf_write {m : Memory} (a : Nat) (v : Int) (hm : m.wf = true) : (m.write a v).wf = true :=
  Memory.wfFrom_write v (Nat.zero_le a) hm

theorem Memory.wf_writeAll {m : Memory} (a : Nat) (vs : List Int) (hm : m.wf = true) : (m.writeAll a vs).wf = true := by
  induction vs generalizing m a with
  | nil => exact hm
  | cons v vs ih => exact ih (a + 1) (Memory.wf_write a v hm)

/-! ## Read after write -/

/-- In a canonical memory, cell `a` holds the word last written to it and a write changes no other cell. -/
theorem Memory.read_write {m : Memory} {lo : Nat} (a b : Nat) (v : Int) (hm : Memory.wfFrom lo m = true) :
    (m.write a v).read b = if a = b then v else m.read b := by
  induction m generalizing lo with
  | nil =>
    by_cases hv : v = 0 <;> simp [Memory.write, Memory.read, unlistedWord, hv]
  | cons c rest ih =>
    obtain ⟨k, u⟩ := c
    rw [Memory.wfFrom_cons] at hm
    obtain ⟨h1, h2, h3⟩ := hm
    have below : ∀ {x}, x ≤ k → Memory.read rest x = 0 := fun hx => Memory.read_below h3 (by omega)
    unfold Memory.write unlistedWord
    split
    · split
      · subst v
        simp only [Memory.read_cons]
        split_ifs <;> first | rfl | omega | (subst b; exact below (by omega))
      · simp only [Memory.read_cons]
    · split
      · subst a
        split
        · subst v
          rw [Memory.read_cons]
          split
          · subst b; exact below (Nat.le_refl _)
          · rfl
        · simp only [Memory.read_cons]
          split <;> rfl
      · simp only [Memory.read_cons, ih h3]
        split_ifs <;> first | rfl | omega

theorem Memory.read_write_same {m : Memory} (a : Nat) (v : Int) (hm : m.wf = true) : (m.write a v).read a = v := by
  rw [Memory.read_write a a v hm, if_pos rfl]

theorem Memory.read_write_other {m : Memory} {a b : Nat} (v : Int) (hm : m.wf = true) (h : b ≠ a) :
    (m.write a v).read b = m.read b := by
  rw [Memory.read_write a b v hm, if_neg (Ne.symm h)]

/-- After a whole load from address `k`, the cells from `k` on hold its words and the others what they held. -/
theorem Memory.read_writeAll {m : Memory} (k b : Nat) (vs : List Int) (hm : m.wf = true) :
    (m.writeAll k vs).read b = if k ≤ b ∧ b < k + vs.length then vs.getD (b - k) 0 else m.read b := by
  induction vs generalizing m k with
  | nil => simp [Memory.writeAll]
  | cons v vs ih =>
    rw [Memory.writeAll, ih (k + 1) (Memory.wf_write k v hm), Memory.read_write k b v hm]
    simp only [List.length_cons]
    by_cases h1 : k = b
    · subst h1
      rw [if_neg (by omega), if_pos rfl, if_pos (by omega)]
      simp
    · by_cases h2 : k + 1 ≤ b ∧ b < k + 1 + vs.length
      · rw [if_pos h2, if_pos (by omega)]
        obtain ⟨j, rfl⟩ : ∃ j, b = k + 1 + j := ⟨b - (k + 1), by omega⟩
        rw [show k + 1 + j - (k + 1) = j by omega, show k + 1 + j - k = j + 1 by omega, List.getD_cons_succ]
      · rw [if_neg h2, if_neg h1, if_neg (by omega)]

/-! ## Equal contents, equal data -/

theorem Memory.eq_of_read_from {m m' : Memory} {lo : Nat} (hm : Memory.wfFrom lo m = true)
    (hm' : Memory.wfFrom lo m' = true) (h : ∀ a, m.read a = m'.read a) : m = m' := by
  induction m generalizing m' lo with
  | nil =>
    cases m' with
    | nil => rfl
    | cons c rest =>
      obtain ⟨k, u⟩ := c
      rw [Memory.wfFrom_cons] at hm'
      have hk := h k
      rw [Memory.read_cons, if_pos rfl] at hk
      exact absurd hk.symm hm'.2.1
  | cons c rest ih =>
    obtain ⟨k, u⟩ := c
    rw [Memory.wfFrom_cons] at hm
    obtain ⟨-, hu, hr⟩ := hm
    have hk := h k
    rw [Memory.read_cons, if_pos rfl] at hk
    cases m' with
    | nil => exact absurd hk hu
    | cons c' rest' =>
      obtain ⟨k', u'⟩ := c'
      rw [Memory.wfFrom_cons] at hm'
      obtain ⟨-, hu', hr'⟩ := hm'
      have hk' := h k'
      rw [Memory.read_cons k' u', if_pos rfl] at hk'
      have hkk : k = k' := by
        rcases Nat.lt_trichotomy k k' with hlt | heq | hgt
        · rw [Memory.read_cons, if_neg (by omega), Memory.read_below hr' (by omega)] at hk
          exact absurd hk hu
        · exact heq
        · rw [Memory.read_cons, if_neg (by omega), Memory.read_below hr (by omega)] at hk'
          exact absurd hk'.symm hu'
      subst hkk
      rw [Memory.read_cons, if_pos rfl] at hk
      subst hk
      have hrest : rest = rest' := by
        refine ih hr hr' fun a => ?_
        by_cases ha : a ≤ k
        · rw [Memory.read_below hr (by omega), Memory.read_below hr' (by omega)]
        · have := h a
          rwa [Memory.read_cons, if_neg (by omega), Memory.read_cons, if_neg (by omega)] at this
      rw [hrest]

/-- Two canonical memories that read the same everywhere are the same data. -/
theorem Memory.eq_of_read {m m' : Memory} (hm : m.wf = true) (hm' : m'.wf = true)
    (h : ∀ a, m.read a = m'.read a) : m = m' :=
  Memory.eq_of_read_from hm hm' h

/-! ## Words and addresses stay in range -/

theorem Memory.mem_write {m : Memory} {a : Nat} {v : Int} {c : Cell} (h : c ∈ m.write a v) : c ∈ m ∨ c = (a, v) := by
  induction m with
  | nil =>
    unfold Memory.write at h
    split at h <;> simp_all
  | cons d rest ih =>
    obtain ⟨k, u⟩ := d
    unfold Memory.write at h
    split at h
    · split at h
      · exact .inl h
      · rcases List.mem_cons.1 h with h | h
        · exact .inr h
        · exact .inl h
    · split at h
      · split at h
        · exact .inl (List.mem_cons_of_mem _ h)
        · rcases List.mem_cons.1 h with h | h
          · exact .inr h
          · exact .inl (List.mem_cons_of_mem _ h)
      · rcases List.mem_cons.1 h with h | h
        · exact .inl (h ▸ List.mem_cons_self)
        · rcases ih h with h | h
          · exact .inl (List.mem_cons_of_mem _ h)
          · exact .inr h

theorem Memory.within_write {w depth : Nat} {m : Memory} {a : Nat} {v : Int} (hm : m.Within w depth) (ha : a < depth)
    (hv : fits w v) : (m.write a v).Within w depth := by
  intro c hc
  rcases Memory.mem_write hc with h | h
  · exact hm c h
  · subst h; exact ⟨ha, hv⟩

theorem Memory.within_writeAll {w depth : Nat} {m : Memory} {a : Nat} {vs : List Int} (hm : m.Within w depth)
    (ha : a + vs.length ≤ depth) (hv : ∀ v ∈ vs, fits w v) : (m.writeAll a vs).Within w depth := by
  induction vs generalizing m a with
  | nil => exact hm
  | cons v vs ih =>
    simp only [List.length_cons] at ha
    exact ih (Memory.within_write hm (by omega) (hv v List.mem_cons_self)) (by omega)
      fun x hx => hv x (List.mem_cons_of_mem _ hx)

theorem fits_zero (w : Nat) : fits w 0 := by
  have : 0 < 2 ^ (w - 1) := Nat.two_pow_pos _
  unfold fits minW maxW
  omega

/-- Every word read from a memory whose listed words fit, fits: 0 does. -/
theorem Memory.fits_read {w depth : Nat} {m : Memory} (hm : m.Within w depth) (a : Nat) : fits w (m.read a) := by
  induction m with
  | nil => exact fits_zero w
  | cons c rest ih =>
    obtain ⟨k, u⟩ := c
    rw [Memory.read_cons]
    split
    · exact (hm (k, u) List.mem_cons_self).2
    · exact ih fun c hc => hm c (List.mem_cons_of_mem _ hc)

end Sys2Proof.Machine
end

