-- ==== Sys2Proof/Laws/State.lean ====
section
/-! SUPPORT. What each named update of the state does to each field, one lemma per field per update, all by `rfl`.
So no later proof unfolds a record update. -/

namespace Sys2Proof.Machine

/-! ## `store` -/

@[simp] theorem State.store_params (s : State) (a v : Int) : (s.store a v).params = s.params := rfl
@[simp] theorem State.store_rst (s : State) (a v : Int) : (s.store a v).rst = s.rst := rfl
@[simp] theorem State.store_mem (s : State) (a v : Int) : (s.store a v).mem = s.mem.write a.toNat v := rfl
@[simp] theorem State.store_len (s : State) (a v : Int) : (s.store a v).len = s.len := rfl
@[simp] theorem State.store_ip (s : State) (a v : Int) : (s.store a v).ip = s.ip := rfl
@[simp] theorem State.store_run (s : State) (a v : Int) : (s.store a v).run = s.run := rfl
@[simp] theorem State.store_failReason (s : State) (a v : Int) : (s.store a v).failReason = s.failReason := rfl
@[simp] theorem State.store_inq (s : State) (a v : Int) : (s.store a v).inq = s.inq := rfl
@[simp] theorem State.store_inHead (s : State) (a v : Int) : (s.store a v).inHead = s.inHead := rfl
@[simp] theorem State.store_out (s : State) (a v : Int) : (s.store a v).out = s.out := rfl
@[simp] theorem State.store_steps (s : State) (a v : Int) : (s.store a v).steps = s.steps := rfl

/-! ## `setIp` -/

@[simp] theorem State.setIp_params (s : State) (target : Int) : (s.setIp target).params = s.params := rfl
@[simp] theorem State.setIp_rst (s : State) (target : Int) : (s.setIp target).rst = s.rst := rfl
@[simp] theorem State.setIp_mem (s : State) (target : Int) : (s.setIp target).mem = s.mem := rfl
@[simp] theorem State.setIp_len (s : State) (target : Int) : (s.setIp target).len = s.len := rfl
@[simp] theorem State.setIp_ip (s : State) (target : Int) : (s.setIp target).ip = target := rfl
@[simp] theorem State.setIp_run (s : State) (target : Int) : (s.setIp target).run = s.run := rfl
@[simp] theorem State.setIp_failReason (s : State) (target : Int) : (s.setIp target).failReason = s.failReason := rfl
@[simp] theorem State.setIp_inq (s : State) (target : Int) : (s.setIp target).inq = s.inq := rfl
@[simp] theorem State.setIp_inHead (s : State) (target : Int) : (s.setIp target).inHead = s.inHead := rfl
@[simp] theorem State.setIp_out (s : State) (target : Int) : (s.setIp target).out = s.out := rfl
@[simp] theorem State.setIp_steps (s : State) (target : Int) : (s.setIp target).steps = s.steps := rfl

/-! ## `advance` -/

@[simp] theorem State.advance_params (s : State) (n : Nat) : (s.advance n).params = s.params := rfl
@[simp] theorem State.advance_rst (s : State) (n : Nat) : (s.advance n).rst = s.rst := rfl
@[simp] theorem State.advance_mem (s : State) (n : Nat) : (s.advance n).mem = s.mem := rfl
@[simp] theorem State.advance_len (s : State) (n : Nat) : (s.advance n).len = s.len := rfl
@[simp] theorem State.advance_ip (s : State) (n : Nat) : (s.advance n).ip = s.ip + 1 + n := rfl
@[simp] theorem State.advance_run (s : State) (n : Nat) : (s.advance n).run = s.run := rfl
@[simp] theorem State.advance_failReason (s : State) (n : Nat) : (s.advance n).failReason = s.failReason := rfl
@[simp] theorem State.advance_inq (s : State) (n : Nat) : (s.advance n).inq = s.inq := rfl
@[simp] theorem State.advance_inHead (s : State) (n : Nat) : (s.advance n).inHead = s.inHead := rfl
@[simp] theorem State.advance_out (s : State) (n : Nat) : (s.advance n).out = s.out := rfl
@[simp] theorem State.advance_steps (s : State) (n : Nat) : (s.advance n).steps = s.steps := rfl

/-! ## `emit` -/

@[simp] theorem State.emit_params (s : State) (v : Int) : (s.emit v).params = s.params := rfl
@[simp] theorem State.emit_rst (s : State) (v : Int) : (s.emit v).rst = s.rst := rfl
@[simp] theorem State.emit_mem (s : State) (v : Int) : (s.emit v).mem = s.mem := rfl
@[simp] theorem State.emit_len (s : State) (v : Int) : (s.emit v).len = s.len := rfl
@[simp] theorem State.emit_ip (s : State) (v : Int) : (s.emit v).ip = s.ip := rfl
@[simp] theorem State.emit_run (s : State) (v : Int) : (s.emit v).run = s.run := rfl
@[simp] theorem State.emit_failReason (s : State) (v : Int) : (s.emit v).failReason = s.failReason := rfl
@[simp] theorem State.emit_inq (s : State) (v : Int) : (s.emit v).inq = s.inq := rfl
@[simp] theorem State.emit_inHead (s : State) (v : Int) : (s.emit v).inHead = s.inHead := rfl
@[simp] theorem State.emit_out (s : State) (v : Int) : (s.emit v).out = s.out ++ [v] := rfl
@[simp] theorem State.emit_steps (s : State) (v : Int) : (s.emit v).steps = s.steps := rfl

/-! ## `consume` -/

@[simp] theorem State.consume_params (s : State) : s.consume.params = s.params := rfl
@[simp] theorem State.consume_rst (s : State) : s.consume.rst = s.rst := rfl
@[simp] theorem State.consume_mem (s : State) : s.consume.mem = s.mem := rfl
@[simp] theorem State.consume_len (s : State) : s.consume.len = s.len := rfl
@[simp] theorem State.consume_ip (s : State) : s.consume.ip = s.ip := rfl
@[simp] theorem State.consume_run (s : State) : s.consume.run = s.run := rfl
@[simp] theorem State.consume_failReason (s : State) : s.consume.failReason = s.failReason := rfl
@[simp] theorem State.consume_inq (s : State) : s.consume.inq = s.inq := rfl
@[simp] theorem State.consume_inHead (s : State) : s.consume.inHead = s.inHead + 1 := rfl
@[simp] theorem State.consume_out (s : State) : s.consume.out = s.out := rfl
@[simp] theorem State.consume_steps (s : State) : s.consume.steps = s.steps := rfl

/-! ## `countStep` -/

@[simp] theorem State.countStep_params (s : State) : s.countStep.params = s.params := rfl
@[simp] theorem State.countStep_rst (s : State) : s.countStep.rst = s.rst := rfl
@[simp] theorem State.countStep_mem (s : State) : s.countStep.mem = s.mem := rfl
@[simp] theorem State.countStep_len (s : State) : s.countStep.len = s.len := rfl
@[simp] theorem State.countStep_ip (s : State) : s.countStep.ip = s.ip := rfl
@[simp] theorem State.countStep_run (s : State) : s.countStep.run = s.run := rfl
@[simp] theorem State.countStep_failReason (s : State) : s.countStep.failReason = s.failReason := rfl
@[simp] theorem State.countStep_inq (s : State) : s.countStep.inq = s.inq := rfl
@[simp] theorem State.countStep_inHead (s : State) : s.countStep.inHead = s.inHead := rfl
@[simp] theorem State.countStep_out (s : State) : s.countStep.out = s.out := rfl
@[simp] theorem State.countStep_steps (s : State) : s.countStep.steps = s.steps + 1 := rfl

/-! ## `halt` -/

@[simp] theorem State.halt_params (s : State) : s.halt.params = s.params := rfl
@[simp] theorem State.halt_rst (s : State) : s.halt.rst = s.rst := rfl
@[simp] theorem State.halt_mem (s : State) : s.halt.mem = s.mem := rfl
@[simp] theorem State.halt_len (s : State) : s.halt.len = s.len := rfl
@[simp] theorem State.halt_ip (s : State) : s.halt.ip = s.ip := rfl
@[simp] theorem State.halt_run (s : State) : s.halt.run = .halted := rfl
@[simp] theorem State.halt_failReason (s : State) : s.halt.failReason = s.failReason := rfl
@[simp] theorem State.halt_inq (s : State) : s.halt.inq = s.inq := rfl
@[simp] theorem State.halt_inHead (s : State) : s.halt.inHead = s.inHead := rfl
@[simp] theorem State.halt_out (s : State) : s.halt.out = s.out := rfl
@[simp] theorem State.halt_steps (s : State) : s.halt.steps = s.steps := rfl

/-! ## `fail` -/

@[simp] theorem State.fail_params (s : State) (r : FailReason) : (s.fail r).params = s.params := rfl
@[simp] theorem State.fail_rst (s : State) (r : FailReason) : (s.fail r).rst = s.rst := rfl
@[simp] theorem State.fail_mem (s : State) (r : FailReason) : (s.fail r).mem = s.mem := rfl
@[simp] theorem State.fail_len (s : State) (r : FailReason) : (s.fail r).len = s.len := rfl
@[simp] theorem State.fail_ip (s : State) (r : FailReason) : (s.fail r).ip = s.ip := rfl
@[simp] theorem State.fail_run (s : State) (r : FailReason) : (s.fail r).run = .failed := rfl
@[simp] theorem State.fail_failReason (s : State) (r : FailReason) : (s.fail r).failReason = r := rfl
@[simp] theorem State.fail_inq (s : State) (r : FailReason) : (s.fail r).inq = s.inq := rfl
@[simp] theorem State.fail_inHead (s : State) (r : FailReason) : (s.fail r).inHead = s.inHead := rfl
@[simp] theorem State.fail_out (s : State) (r : FailReason) : (s.fail r).out = s.out := rfl
@[simp] theorem State.fail_steps (s : State) (r : FailReason) : (s.fail r).steps = s.steps := rfl

/-! ## `assertRst` -/

@[simp] theorem State.assertRst_params (s : State) : s.assertRst.params = s.params := rfl
@[simp] theorem State.assertRst_rst (s : State) : s.assertRst.rst = .asserted false false := rfl
@[simp] theorem State.assertRst_mem (s : State) : s.assertRst.mem = s.mem := rfl
@[simp] theorem State.assertRst_len (s : State) : s.assertRst.len = s.len := rfl
@[simp] theorem State.assertRst_ip (s : State) : s.assertRst.ip = 0 := rfl
@[simp] theorem State.assertRst_run (s : State) : s.assertRst.run = .running := rfl
@[simp] theorem State.assertRst_failReason (s : State) : s.assertRst.failReason = .none := rfl
@[simp] theorem State.assertRst_inq (s : State) : s.assertRst.inq = s.inq := rfl
@[simp] theorem State.assertRst_inHead (s : State) : s.assertRst.inHead = 0 := rfl
@[simp] theorem State.assertRst_out (s : State) : s.assertRst.out = [] := rfl
@[simp] theorem State.assertRst_steps (s : State) : s.assertRst.steps = 0 := rfl

/-! ## `withLimit` -/

@[simp] theorem State.withLimit_params (s : State) (l : Option Nat) : (s.withLimit l).params = { s.params with stepLimit := l } := rfl
@[simp] theorem State.withLimit_rst (s : State) (l : Option Nat) : (s.withLimit l).rst = s.rst := rfl
@[simp] theorem State.withLimit_mem (s : State) (l : Option Nat) : (s.withLimit l).mem = s.mem := rfl
@[simp] theorem State.withLimit_len (s : State) (l : Option Nat) : (s.withLimit l).len = s.len := rfl
@[simp] theorem State.withLimit_ip (s : State) (l : Option Nat) : (s.withLimit l).ip = s.ip := rfl
@[simp] theorem State.withLimit_run (s : State) (l : Option Nat) : (s.withLimit l).run = s.run := rfl
@[simp] theorem State.withLimit_failReason (s : State) (l : Option Nat) : (s.withLimit l).failReason = s.failReason := rfl
@[simp] theorem State.withLimit_inq (s : State) (l : Option Nat) : (s.withLimit l).inq = s.inq := rfl
@[simp] theorem State.withLimit_inHead (s : State) (l : Option Nat) : (s.withLimit l).inHead = s.inHead := rfl
@[simp] theorem State.withLimit_out (s : State) (l : Option Nat) : (s.withLimit l).out = s.out := rfl
@[simp] theorem State.withLimit_steps (s : State) (l : Option Nat) : (s.withLimit l).steps = s.steps := rfl

/-! ## `withWidth` -/

@[simp] theorem State.withWidth_params (s : State) (w : Nat) : (s.withWidth w).params = { s.params with w := w } := rfl
@[simp] theorem State.withWidth_rst (s : State) (w : Nat) : (s.withWidth w).rst = s.rst := rfl
@[simp] theorem State.withWidth_mem (s : State) (w : Nat) : (s.withWidth w).mem = s.mem := rfl
@[simp] theorem State.withWidth_len (s : State) (w : Nat) : (s.withWidth w).len = s.len := rfl
@[simp] theorem State.withWidth_ip (s : State) (w : Nat) : (s.withWidth w).ip = s.ip := rfl
@[simp] theorem State.withWidth_run (s : State) (w : Nat) : (s.withWidth w).run = s.run := rfl
@[simp] theorem State.withWidth_failReason (s : State) (w : Nat) : (s.withWidth w).failReason = s.failReason := rfl
@[simp] theorem State.withWidth_inq (s : State) (w : Nat) : (s.withWidth w).inq = s.inq := rfl
@[simp] theorem State.withWidth_inHead (s : State) (w : Nat) : (s.withWidth w).inHead = s.inHead := rfl
@[simp] theorem State.withWidth_out (s : State) (w : Nat) : (s.withWidth w).out = s.out := rfl
@[simp] theorem State.withWidth_steps (s : State) (w : Nat) : (s.withWidth w).steps = s.steps := rfl

/-! ## `withMem` -/

@[simp] theorem State.withMem_params (s : State) (m : Memory) : (s.withMem m).params = s.params := rfl
@[simp] theorem State.withMem_rst (s : State) (m : Memory) : (s.withMem m).rst = s.rst := rfl
@[simp] theorem State.withMem_mem (s : State) (m : Memory) : (s.withMem m).mem = m := rfl
@[simp] theorem State.withMem_len (s : State) (m : Memory) : (s.withMem m).len = s.len := rfl
@[simp] theorem State.withMem_ip (s : State) (m : Memory) : (s.withMem m).ip = s.ip := rfl
@[simp] theorem State.withMem_run (s : State) (m : Memory) : (s.withMem m).run = s.run := rfl
@[simp] theorem State.withMem_failReason (s : State) (m : Memory) : (s.withMem m).failReason = s.failReason := rfl
@[simp] theorem State.withMem_inq (s : State) (m : Memory) : (s.withMem m).inq = s.inq := rfl
@[simp] theorem State.withMem_inHead (s : State) (m : Memory) : (s.withMem m).inHead = s.inHead := rfl
@[simp] theorem State.withMem_out (s : State) (m : Memory) : (s.withMem m).out = s.out := rfl
@[simp] theorem State.withMem_steps (s : State) (m : Memory) : (s.withMem m).steps = s.steps := rfl

end Sys2Proof.Machine
end

