-- ==== Sys2Proof/Laws/Exec.lean ====
section
/-! SUPPORT. What the shared operations and the nine meanings can do, said once: each lemma lists every outcome with its
guards, so that later proofs cite it and do not unfold the operation. -/

namespace Sys2Proof.Machine

/-! ## The address controller and the operands -/

theorem State.memRead_valid {s : State} {a : Int} (h : s.Valid a) : s.memRead a = some (s.mem.read a.toNat) := if_pos h

theorem State.memRead_eq_none_iff (s : State) (a : Int) : s.memRead a = none ↔ ¬ s.Valid a := by
  unfold State.memRead; split <;> simp_all

theorem State.memRead_eq_some_iff (s : State) (a v : Int) :
    s.memRead a = some v ↔ s.Valid a ∧ s.mem.read a.toNat = v := by
  unfold State.memRead
  split
  · simp only [Option.some.injEq, iff_and_self]; exact fun _ => ‹_›
  · simp_all

/-- A read depends on `LEN` and on the cells below it alone. -/
theorem State.memRead_congr {s s' : State} (hl : s.len = s'.len) (hm : Memory.AgreeBelow s.len s.mem s'.mem) (a : Int) :
    s.memRead a = s'.memRead a := by
  have hiff : s.Valid a ↔ s'.Valid a := by unfold State.Valid; rw [hl]
  by_cases hv : s.Valid a
  · rw [State.memRead_valid hv, State.memRead_valid (hiff.1 hv), hm a.toNat (by omega)]
  · rw [(State.memRead_eq_none_iff s a).2 hv, (State.memRead_eq_none_iff s' a).2 (mt hiff.2 hv)]

theorem sourceValue_congr {s s' : State} (hl : s.len = s'.len) (hm : Memory.AgreeBelow s.len s.mem s'.mem) (a : Src) :
    sourceValue s a = sourceValue s' a := by
  cases a with
  | immediate v => rfl
  | position v => exact State.memRead_congr hl hm v

@[simp] theorem sourceValue_immediate (s : State) (v : Int) : sourceValue s (.immediate v) = some v := rfl

@[simp] theorem sourceValue_position (s : State) (a : Int) : sourceValue s (.position a) = s.memRead a := rfl

theorem withSource_some {s : State} {a : Src} {v : Int} (k : Int → Result) (h : sourceValue s a = some v) :
    withSource a s k = k v := by
  simp [withSource, h]

theorem withSource_none {s : State} {a : Src} (k : Int → Result) (h : sourceValue s a = none) :
    withSource a s k = .next (s.fail .undefinedAddress) := by
  simp [withSource, h, raise]

theorem withTarget_valid {s : State} {dst : Int} (k : Result) (h : s.Valid dst) : withTarget dst s k = k := if_pos h

theorem withTarget_invalid {s : State} {dst : Int} (k : Result) (h : ¬ s.Valid dst) :
    withTarget dst s k = .next (s.fail .undefinedAddress) := if_neg h

/-! ## The shapes of instruction -/

/-- Everything a two-source instruction with a write-target can do. -/
theorem execBinary_cases (f : Int → Int → Option Int) (a b : Src) (dst : Int) (s : State) :
    ((sourceValue s a = none ∨ sourceValue s b = none ∨ ¬ s.Valid dst) ∧
      execBinary f a b dst s = .next (s.fail .undefinedAddress)) ∨
    ∃ x y, sourceValue s a = some x ∧ sourceValue s b = some y ∧ s.Valid dst ∧
      ((f x y = none ∧ execBinary f a b dst s = .next (s.fail .arithmeticOverflow)) ∨
        ∃ v, f x y = some v ∧ execBinary f a b dst s = .next ((s.store dst v).advance 3)) := by
  unfold execBinary
  cases ha : sourceValue s a with
  | none => exact .inl ⟨.inl rfl, withSource_none _ ha⟩
  | some x =>
    rw [withSource_some _ ha]
    cases hb : sourceValue s b with
    | none => exact .inl ⟨.inr (.inl rfl), withSource_none _ hb⟩
    | some y =>
      rw [withSource_some _ hb]
      by_cases hd : s.Valid dst
      · rw [withTarget_valid _ hd]
        refine .inr ⟨x, y, rfl, rfl, hd, ?_⟩
        cases hf : f x y with
        | none => exact .inl ⟨rfl, rfl⟩
        | some v => exact .inr ⟨v, rfl, rfl⟩
      · exact .inl ⟨.inr (.inr hd), withTarget_invalid _ hd⟩

/-- Everything a conditional jump can do. -/
theorem execJump_cases (test : Int → Bool) (c t : Src) (s : State) :
    ((sourceValue s c = none ∨ sourceValue s t = none) ∧ execJump test c t s = .next (s.fail .undefinedAddress)) ∨
    ∃ x y, sourceValue s c = some x ∧ sourceValue s t = some y ∧
      execJump test c t s = .next (if test x then s.setIp y else s.advance 2) := by
  unfold execJump
  cases hc : sourceValue s c with
  | none => exact .inl ⟨.inl rfl, withSource_none _ hc⟩
  | some x =>
    rw [withSource_some _ hc]
    cases ht : sourceValue s t with
    | none => exact .inl ⟨.inr rfl, withSource_none _ ht⟩
    | some y =>
      rw [withSource_some _ ht]
      exact .inr ⟨x, y, rfl, rfl, rfl⟩

/-- Everything IN can do. -/
theorem execIn_cases (dst : Int) (s : State) :
    (¬ s.Valid dst ∧ execIn dst s = .next (s.fail .undefinedAddress)) ∨
    (s.Valid dst ∧ s.nextInput = none ∧ execIn dst s = .next (s.fail .inputExhausted)) ∨
    ∃ v, s.Valid dst ∧ s.nextInput = some v ∧ execIn dst s = .next (((s.store dst v).consume).advance 1) := by
  unfold execIn
  by_cases hd : s.Valid dst
  · rw [withTarget_valid _ hd]
    cases hn : s.nextInput with
    | none => exact .inr (.inl ⟨hd, rfl, rfl⟩)
    | some v => exact .inr (.inr ⟨v, hd, rfl, rfl⟩)
  · exact .inl ⟨hd, withTarget_invalid _ hd⟩

/-- Everything OUT can do. -/
theorem execOut_cases (a : Src) (s : State) :
    (sourceValue s a = none ∧ execOut a s = .next (s.fail .undefinedAddress)) ∨
    ∃ v, sourceValue s a = some v ∧ execOut a s = .next ((s.emit v).advance 1) := by
  unfold execOut
  cases ha : sourceValue s a with
  | none => exact .inl ⟨rfl, withSource_none _ ha⟩
  | some v => exact .inr ⟨v, rfl, withSource_some _ ha⟩

/-- The cell just stored to holds the word stored, if it is valid. -/
theorem State.memRead_store {s : State} {dst : Int} (v : Int) (hm : s.mem.wf = true) (hd : s.Valid dst) :
    (s.store dst v).memRead dst = some v := by
  rw [State.memRead_valid (s := s.store dst v) hd]
  exact congrArg some (Memory.read_write_same _ _ hm)

/-! ## The arithmetic unit -/

theorem narrow_eq_some_iff (w : Nat) (r v : Int) : narrow w r = some v ↔ fits w r ∧ v = r := by
  unfold narrow
  split
  · simp only [Option.some.injEq]; exact ⟨fun h => ⟨‹_›, h.symm⟩, fun h => h.2.symm⟩
  · simp_all

theorem fits_of_narrow {w : Nat} {r v : Int} (h : narrow w r = some v) : fits w v := by
  obtain ⟨h1, rfl⟩ := (narrow_eq_some_iff _ _ _).1 h
  exact h1

theorem narrow_eq_none_iff (w : Nat) (r : Int) : narrow w r = none ↔ ¬ fits w r := by
  unfold narrow; split <;> simp_all

theorem lessWord_eq (x y : Int) : lessWord x y = if x < y then 1 else 0 := by
  simp [lessWord, truthWord]

theorem equalWord_eq (x y : Int) : equalWord x y = if x = y then 1 else 0 := by
  simp [equalWord, truthWord]

@[simp] theorem jumpsIfTrue_iff (x : Int) : jumpsIfTrue x = true ↔ x ≠ 0 := by simp [jumpsIfTrue]

@[simp] theorem jumpsIfFalse_iff (x : Int) : jumpsIfFalse x = true ↔ x = 0 := by simp [jumpsIfFalse]

/-! ## Every instruction -/

/-- `t` is what the execute stage of `i` makes of `s`: a failure, a store with the default advance, an input, an output,
a jump, or the halt. -/
def Effect (i : Instr) (s t : State) : Prop :=
  (∃ r, (r = .undefinedAddress ∨ r = .arithmeticOverflow ∨ r = .inputExhausted) ∧ t = s.fail r) ∨
  (∃ dst v, i.target = some dst ∧ i.rawWords.length = 3 ∧ s.Valid dst ∧ (fits s.params.w v ∨ v = 0 ∨ v = 1) ∧
    t = (s.store dst v).advance 3) ∨
  (∃ dst v, i = .inp dst ∧ s.Valid dst ∧ s.nextInput = some v ∧ t = ((s.store dst v).consume).advance 1) ∨
  (∃ a v, i = .out a ∧ sourceValue s a = some v ∧ t = (s.emit v).advance 1) ∨
  (∃ c a v, (i = .jt c a ∨ i = .jf c a) ∧ sourceValue s a = some v ∧ (t = s.setIp v ∨ t = s.advance 2)) ∨
  (i = .hlt ∧ t = s.halt)

/-- Everything the execute stage can do, over all instructions: it always answers a next state. -/
theorem exec_cases (i : Instr) (s : State) : ∃ t, exec i s = .next t ∧ Effect i s t := by
  have store : ∀ f a b dst, i.target = some dst → i.rawWords.length = 3 →
      (∀ x y v, f x y = some v → fits s.params.w v ∨ v = 0 ∨ v = 1) → exec i s = execBinary f a b dst s →
      ∃ t, exec i s = .next t ∧ Effect i s t := by
    intro f a b dst h1 h2 hf he
    rcases execBinary_cases f a b dst s with ⟨-, h⟩ | ⟨x, y, -, -, hd, ⟨-, h⟩ | ⟨v, hv, h⟩⟩
    · exact ⟨_, he.trans h, .inl ⟨_, by simp, rfl⟩⟩
    · exact ⟨_, he.trans h, .inl ⟨_, by simp, rfl⟩⟩
    · exact ⟨_, he.trans h, .inr (.inl ⟨dst, v, h1, h2, hd, hf x y v hv, rfl⟩)⟩
  have jump : ∀ test c a, (i = .jt c a ∨ i = .jf c a) → exec i s = execJump test c a s →
      ∃ t, exec i s = .next t ∧ Effect i s t := by
    intro test c a hi he
    rcases execJump_cases test c a s with ⟨-, h⟩ | ⟨x, y, -, hy, h⟩
    · exact ⟨_, he.trans h, .inl ⟨_, by simp, rfl⟩⟩
    · refine ⟨_, he.trans h, .inr (.inr (.inr (.inr (.inl ⟨c, a, y, hi, hy, ?_⟩))))⟩
      split
      · exact .inl rfl
      · exact .inr rfl
  cases i with
  | add a b dst =>
    exact store _ a b dst rfl rfl (fun x y v h => .inl (fits_of_narrow h)) rfl
  | mul a b dst =>
    exact store _ a b dst rfl rfl (fun x y v h => .inl (fits_of_narrow h)) rfl
  | lt a b dst =>
    exact store _ a b dst rfl rfl (fun x y v h => by
      cases h; rw [lessWord_eq]; split <;> simp) rfl
  | eq a b dst =>
    exact store _ a b dst rfl rfl (fun x y v h => by
      cases h; rw [equalWord_eq]; split <;> simp) rfl
  | jt c a => exact jump _ c a (.inl rfl) rfl
  | jf c a => exact jump _ c a (.inr rfl) rfl
  | inp dst =>
    rcases execIn_cases dst s with ⟨-, h⟩ | ⟨-, -, h⟩ | ⟨v, hd, hn, h⟩
    · exact ⟨_, h, .inl ⟨_, by simp, rfl⟩⟩
    · exact ⟨_, h, .inl ⟨_, by simp, rfl⟩⟩
    · exact ⟨_, h, .inr (.inr (.inl ⟨dst, v, rfl, hd, hn, rfl⟩))⟩
  | out a =>
    rcases execOut_cases a s with ⟨-, h⟩ | ⟨v, hv, h⟩
    · exact ⟨_, h, .inl ⟨_, by simp, rfl⟩⟩
    · exact ⟨_, h, .inr (.inr (.inr (.inl ⟨a, v, rfl, hv, rfl⟩)))⟩
  | hlt => exact ⟨_, rfl, .inr (.inr (.inr (.inr (.inr ⟨rfl, rfl⟩))))⟩

end Sys2Proof.Machine
end

