-- ==== Sys2Proof/Laws/PerInstr.lean ====
section
/-! SUPPORT. The per-instruction family `Encoded`: the shape of the words the encoder emits (30_encoding.md R43, R53). -/

namespace Sys2Proof.Laws.Encoded

/-- The words of `i` are its opcode word and its parameter words: between 1 and 4 of them (R42, R43); the opcode word is
non-negative with the operation in its two low decimal digits (R45) and no mode digit beyond the parameters' (R58). -/
def Statement (i : Instr) : Prop :=
  (encode i).length = 1 + i.rawWords.length ∧ i.rawWords.length ≤ 3 ∧ 0 ≤ i.opcodeWordWith 0 ∧
    (i.opcodeWordWith 0).toNat % 100 = i.operation ∧ (i.opcodeWordWith 0).toNat / 100 = i.modeDigits ∧ i.modeDigits ≤ 11

theorem of_bounds {i : Instr} (h1 : i.rawWords.length ≤ 3) (h2 : i.modeDigits ≤ 11) : Statement i :=
  ⟨by simp [encode, Nat.add_comm], h1, opcodeWordWith_nonneg 0 i, opcodeWordWith_operation 0 i,
    by simp [opcodeWordWith_quotient], h2⟩

theorem two_modes (a b : Src) : a.modeDigit + 10 * b.modeDigit ≤ 11 := by
  have := a.modeDigit_le
  have := b.modeDigit_le
  omega

theorem add (a b : Src) (dst : Int) : Statement (.add a b dst) := of_bounds (Nat.le_refl 3) (two_modes a b)

theorem mul (a b : Src) (dst : Int) : Statement (.mul a b dst) := of_bounds (Nat.le_refl 3) (two_modes a b)

theorem inp (dst : Int) : Statement (.inp dst) := of_bounds (by decide : 1 ≤ 3) (by decide : 0 ≤ 11)

theorem out (a : Src) : Statement (.out a) :=
  of_bounds (by decide : 1 ≤ 3) (Nat.le_trans a.modeDigit_le (by decide : 1 ≤ 11))

theorem jt (cond target : Src) : Statement (.jt cond target) := of_bounds (by decide : 2 ≤ 3) (two_modes cond target)

theorem jf (cond target : Src) : Statement (.jf cond target) := of_bounds (by decide : 2 ≤ 3) (two_modes cond target)

theorem lt (a b : Src) (dst : Int) : Statement (.lt a b dst) := of_bounds (Nat.le_refl 3) (two_modes a b)

theorem eq (a b : Src) (dst : Int) : Statement (.eq a b dst) := of_bounds (Nat.le_refl 3) (two_modes a b)

theorem hlt : Statement .hlt := of_bounds (by decide : 0 ≤ 3) (by decide : 0 ≤ 11)

end Sys2Proof.Laws.Encoded
end

