-- ==== Sys2Proof/Laws/Ports.lean ====
section
/-! SUPPORT. What the host's transactions do (70_reset_and_hazards.md R100 to R102), said once: when each is taken and
what it leaves; and a run of the core step by step (40_engine_step.md R61). -/

namespace Sys2Proof.Machine

/-- A transaction of the load port is taken exactly under these conditions. -/
theorem State.loadProgram_eq_next_iff (p : List Int) (s t : State) :
    s.loadProgram p = .next t ↔
      ∃ a b, s.rst = .asserted a b ∧ p.length ≤ s.params.memDepth ∧ (∀ v ∈ p, fits s.params.w v) ∧
        t = { s with mem := s.mem.writeAll 0 p, len := p.length, rst := .asserted true b } := by
  unfold State.loadProgram
  cases hr : s.rst with
  | released => simp
  | asserted a b =>
    simp only [ResetLine.asserted.injEq]
    by_cases h1 : s.params.memDepth < p.length
    · simp only [if_pos h1, reduceCtorEq, false_iff]
      rintro ⟨_, _, -, h, -⟩
      omega
    · rw [if_neg h1]
      by_cases h2 : ∀ v ∈ p, fits s.params.w v
      · rw [if_neg (by simpa using h2), Host.Outcome.next.injEq]
        exact ⟨fun h => ⟨a, b, ⟨rfl, rfl⟩, by omega, h2, h.symm⟩, fun ⟨_, _, ⟨_, rfl⟩, _, _, h⟩ => h.symm⟩
      · rw [if_pos (by simpa using h2)]
        simp only [reduceCtorEq, false_iff]
        rintro ⟨_, _, -, -, h, -⟩
        exact h2 h

/-- A transaction of the input port is taken exactly under these conditions. -/
theorem State.loadInput_eq_next_iff (xs : List Int) (s t : State) :
    s.loadInput xs = .next t ↔
      ∃ a b, s.rst = .asserted a b ∧ xs.length ≤ s.params.inMax ∧ (∀ v ∈ xs, fits s.params.w v) ∧
        t = { s with inq := xs, rst := .asserted a true } := by
  unfold State.loadInput
  cases hr : s.rst with
  | released => simp
  | asserted a b =>
    simp only [ResetLine.asserted.injEq]
    by_cases h1 : s.params.inMax < xs.length
    · simp only [if_pos h1, reduceCtorEq, false_iff]
      rintro ⟨_, _, -, h, -⟩
      omega
    · rw [if_neg h1]
      by_cases h2 : ∀ v ∈ xs, fits s.params.w v
      · rw [if_neg (by simpa using h2), Host.Outcome.next.injEq]
        exact ⟨fun h => ⟨a, b, ⟨rfl, rfl⟩, by omega, h2, h.symm⟩, fun ⟨_, _, ⟨rfl, _⟩, _, _, h⟩ => h.symm⟩
      · rw [if_pos (by simpa using h2)]
        simp only [reduceCtorEq, false_iff]
        rintro ⟨_, _, -, -, h, -⟩
        exact h2 h

/-- `rst` is released exactly after both loads. -/
theorem State.releaseRst_eq_next_iff (s t : State) :
    s.releaseRst = .next t ↔ s.rst = .asserted true true ∧ t = { s with rst := .released } := by
  unfold State.releaseRst
  cases hr : s.rst with
  | released => simp
  | asserted a b => cases a <;> cases b <;> simp [eq_comm]

theorem andThen_eq_next_iff (r : Result) (k : State → Result) (t : State) :
    andThen r k = .next t ↔ ∃ s, r = .next s ∧ k s = .next t := by
  cases r <;> simp [andThen]

/-- The boot sequence is taken exactly where both loads fit, and leaves the start state of 10_state.md R25. -/
theorem State.boot_eq_next_iff (p xs : List Int) (s t : State) :
    s.boot p xs = .next t ↔
      p.length ≤ s.params.memDepth ∧ (∀ v ∈ p, fits s.params.w v) ∧ xs.length ≤ s.params.inMax ∧
      (∀ v ∈ xs, fits s.params.w v) ∧
      t = { s.assertRst with
            mem := s.mem.writeAll 0 p, len := p.length, inq := xs, rst := .released } := by
  unfold State.boot
  simp only [andThen_eq_next_iff, State.loadProgram_eq_next_iff, State.loadInput_eq_next_iff,
    State.releaseRst_eq_next_iff]
  constructor
  · rintro ⟨_, ⟨_, _, hr, h1, h2, rfl⟩, _, ⟨_, _, _, h3, h4, rfl⟩, -, rfl⟩
    exact ⟨h1, h2, h3, h4, rfl⟩
  · rintro ⟨h1, h2, h3, h4, rfl⟩
    exact ⟨_, ⟨_, _, rfl, h1, h2, rfl⟩, _, ⟨_, _, rfl, h3, h4, rfl⟩, rfl, rfl⟩

/-! ## Runs -/

@[simp] theorem runSteps_zero (s : State) : runSteps 0 s = .next s := rfl

theorem runSteps_succ (k : Nat) (s : State) : runSteps (k + 1) s = andThen (step s) (runSteps k) := rfl

/-- A run of `k + 1` steps is a step and a run of `k`. -/
theorem runSteps_succ_eq_next_iff (k : Nat) (s t : State) :
    runSteps (k + 1) s = .next t ↔ ∃ u, step s = .next u ∧ runSteps k u = .next t := by
  rw [runSteps_succ, andThen_eq_next_iff]

/-- Something every step keeps is kept by every run. -/
theorem runSteps_keeps (P : State → Prop) (h : ∀ s t, P s → step s = .next t → P t) (k : Nat) (s t : State) (hs : P s)
    (hr : runSteps k s = .next t) : P t := by
  induction k generalizing s with
  | zero => cases hr; exact hs
  | succ k ih =>
    obtain ⟨u, hu, hk⟩ := (runSteps_succ_eq_next_iff k s t).1 hr
    exact ih u (h s u hs hu) hk

/-- A relation every step has to what follows, transitive and reflexive, holds over every run. -/
theorem runSteps_rel (R : State → State → Prop) (refl : ∀ s, R s s) (trans : ∀ s t u, R s t → R t u → R s u)
    (h : ∀ s t, step s = .next t → R s t) (k : Nat) (s t : State) (hr : runSteps k s = .next t) : R s t := by
  induction k generalizing s with
  | zero => cases hr; exact refl _
  | succ k ih =>
    obtain ⟨u, hu, hk⟩ := (runSteps_succ_eq_next_iff k s t).1 hr
    exact trans s u t (h s u hu) (ih u hk)

/-- A run of `j + k` steps is a run of `j` and then one of `k`. -/
theorem runSteps_add (j k : Nat) (s : State) : runSteps (j + k) s = andThen (runSteps j s) (runSteps k) := by
  induction j generalizing s with
  | zero => rw [Nat.zero_add]; rfl
  | succ j ih =>
    rw [Nat.succ_add, runSteps_succ, runSteps_succ]
    cases step s with
    | next u => exact ih u
    | fault f => rfl
    | refused f => rfl

theorem core_run_eq_of (M : Host.Core) (f : Nat → M.State → Host.Outcome M.State M.Fault M.Refusal)
    (h0 : ∀ s, f 0 s = .next s)
    (h : ∀ k s, f (k + 1) s = match M.step s with
      | .next u => f k u
      | .fault r => .fault r
      | .refused r => .refused r) (k : Nat) (s : M.State) : f k s = M.run k s := by
  induction k generalizing s with
  | zero => exact h0 s
  | succ k ih =>
    rw [h, Host.Core.run]
    cases M.step s with
    | next u => exact ih u
    | fault f => rfl
    | refused f => rfl

/-- The run of the claims is the host's run of this core. -/
theorem runSteps_eq_core_run (k : Nat) (s : State) : runSteps k s = Sys2Proof.core.run k s :=
  core_run_eq_of Sys2Proof.core runSteps (fun _ => rfl)
    (fun k s => by
      change andThen (step s) (runSteps k) = _
      cases h : step s <;> (have h' : Sys2Proof.core.step s = step s := rfl; rw [h', h]; rfl)) k s

end Sys2Proof.Machine
end

