-- ==== Sys2Proof/Laws/Step.lean ====
section
/-! SUPPORT. What a step can do, said once (40_engine_step.md R63): the guards, the failures of stages 0 to 4, and
otherwise the execute stage of the decoded instruction. -/

namespace Sys2Proof.Machine

/-! ## Fetching words -/

theorem State.readWords_succ {s : State} {a : Int} {n : Nat} {ws : List Int} :
    s.readWords a (n + 1) = some ws ↔
      ∃ v vs, ws = v :: vs ∧ s.memRead a = some v ∧ s.readWords (a + 1) n = some vs := by
  rw [State.readWords]
  cases s.memRead a <;> cases s.readWords (a + 1) n <;> simp [eq_comm]

/-- `n` words are read exactly where all `n` cells are valid. -/
theorem State.readWords_isSome_iff (s : State) (a : Int) (n : Nat) :
    (s.readWords a n).isSome = true ↔ ∀ j : Nat, j < n → s.Valid (a + j) := by
  induction n generalizing a with
  | zero => simp [State.readWords]
  | succ n ih =>
    have step : (s.readWords a (n + 1)).isSome = true ↔
        s.Valid a ∧ (s.readWords (a + 1) n).isSome = true := by
      rw [State.readWords]
      by_cases hv : s.Valid a
      · rw [State.memRead_valid hv]
        cases s.readWords (a + 1) n
        · simp
        · exact iff_of_true rfl ⟨hv, rfl⟩
      · rw [(State.memRead_eq_none_iff s a).2 hv]
        simp only [Option.isSome, Bool.false_eq_true, hv, false_and]
    rw [step, ih]
    constructor
    · rintro ⟨h0, h⟩ j hj
      cases j with
      | zero => simpa using h0
      | succ j =>
        have := h j (by omega)
        unfold State.Valid at this ⊢
        push_cast
        omega
    · intro h
      refine ⟨by simpa using h 0 (by omega), fun j hj => ?_⟩
      have := h (j + 1) (by omega)
      unfold State.Valid at this ⊢
      push_cast at this
      omega

theorem State.readWords_eq_none_iff (s : State) (a : Int) (n : Nat) :
    s.readWords a n = none ↔ ∃ j : Nat, j < n ∧ ¬ s.Valid (a + j) := by
  rw [← Option.not_isSome_iff_eq_none, State.readWords_isSome_iff]
  simp only [not_forall, exists_prop]

theorem State.readWords_length {s : State} {a : Int} {n : Nat} {ws : List Int} (h : s.readWords a n = some ws) :
    ws.length = n := by
  induction n generalizing a ws with
  | zero => simp_all [State.readWords]
  | succ n ih =>
    obtain ⟨v, vs, rfl, -, h2⟩ := State.readWords_succ.1 h
    simp [ih h2]

theorem State.readWords_append {s : State} {a : Int} {n k : Nat} {ws : List Int} (h : s.readWords a (n + k) = some ws) :
    s.readWords a n = some (ws.take n) := by
  induction n generalizing a ws with
  | zero => simp [State.readWords]
  | succ n ih =>
    rw [show n + 1 + k = n + k + 1 by omega] at h
    obtain ⟨v, vs, rfl, h1, h2⟩ := State.readWords_succ.1 h
    exact State.readWords_succ.2 ⟨v, vs.take n, by simp, h1, ih h2⟩

/-- Word `j` of what is read is the word of cell `a + j`. -/
theorem State.readWords_getElem? {s : State} {a : Int} {n j : Nat} {ws : List Int} (h : s.readWords a n = some ws)
    (hj : j < n) : ws[j]? = s.memRead (a + j) := by
  induction n generalizing a ws j with
  | zero => omega
  | succ n ih =>
    obtain ⟨v, vs, rfl, h1, h2⟩ := State.readWords_succ.1 h
    cases j with
    | zero => simp [h1]
    | succ j =>
      rw [List.getElem?_cons_succ, ih h2 (by omega)]
      congr 1
      push_cast
      omega

/-- Every word fetched fits if every word of memory does. -/
theorem State.fits_readWords {s : State} (hm : s.mem.Within s.params.w s.params.memDepth) {a : Int} {n : Nat}
    {ws : List Int} (h : s.readWords a n = some ws) : ∀ v ∈ ws, fits s.params.w v := by
  induction n generalizing a ws with
  | zero => simp_all [State.readWords]
  | succ n ih =>
    obtain ⟨v, vs, rfl, h1, h2⟩ := State.readWords_succ.1 h
    intro x hx
    rcases List.mem_cons.1 hx with rfl | hx
    · rw [((State.memRead_eq_some_iff s a x).1 h1).2.symm]; exact Memory.fits_read hm _
    · exact ih h2 x hx

theorem State.readWords_congr {s s' : State} (hl : s.len = s'.len) (hm : Memory.AgreeBelow s.len s.mem s'.mem) (a : Int)
    (n : Nat) : s.readWords a n = s'.readWords a n := by
  induction n generalizing a with
  | zero => rfl
  | succ n ih => rw [State.readWords, State.readWords, ih, State.memRead_congr hl hm]

@[simp] theorem State.countStep_readWords (s : State) (a : Int) (n : Nat) :
    s.countStep.readWords a n = s.readWords a n :=
  State.readWords_congr (s := s.countStep) (s' := s) rfl (fun _ _ => rfl) a n

@[simp] theorem State.countStep_fetchParams (s : State) (n : Nat) : s.countStep.fetchParams n = s.fetchParams n :=
  s.countStep_readWords _ n

/-! ## Building the instruction -/

/-- Exactly `arity` parameter words make an instruction, with the rest left over. -/
theorem build_take {op : Op} {ws : List Int} (h : op.arity ≤ ws.length) :
    ∃ i, op.build ws = some (i, ws.drop op.arity) ∧ op.build (ws.take op.arity) = some (i, []) ∧
      i.rawWords = ws.take op.arity := by
  have cons : ∀ {n} {l : List Int}, n + 1 ≤ l.length → ∃ x l', l = x :: l' ∧ n ≤ l'.length := by
    intro n l hl
    cases l with
    | nil => simp at hl
    | cons x l' => exact ⟨x, l', rfl, by simpa using hl⟩
  cases op <;> simp only [Op.arity] at h
  all_goals try (obtain ⟨p0, ws, rfl, h1⟩ := cons h)
  all_goals try (obtain ⟨p1, ws, rfl, h2⟩ := cons h1)
  all_goals try (obtain ⟨p2, ws, rfl, h3⟩ := cons h2)
  all_goals exact ⟨_, rfl, by simp [Op.arity, Op.build], by simp [Op.arity, Instr.rawWords]⟩

/-- Any `arity` words at all are the parameter words of an instruction (30_encoding.md R43). -/
theorem build_append {op : Op} {ps : List Int} (rest : List Int) (h : ps.length = op.arity) :
    ∃ i, op.build (ps ++ rest) = some (i, rest) ∧ i.rawWords = ps := by
  obtain ⟨i, h1, -, h2⟩ := build_take (op := op) (ws := ps ++ rest) (by simp [← h])
  rw [← h] at h1 h2
  exact ⟨i, by simpa using h1, by simpa using h2⟩

theorem build_eq_some {op : Op} {ws rest : List Int} {i : Instr} (h : op.build ws = some (i, rest)) :
    op.arity ≤ ws.length ∧ i.rawWords.length = op.arity := by
  unfold Op.build at h
  split at h <;> simp_all [Op.arity] <;> obtain ⟨rfl, -⟩ := h <;> simp [Instr.rawWords]

/-! ## The stages -/

theorem runOp_eq_exec {op : Op} {s : State} {ps rest : List Int} {i : Instr} (hp : s.fetchParams op.arity = some ps)
    (hb : op.build ps = some (i, rest)) : runOp op s = exec i s := by
  simp [runOp, hp, hb]

/-- Stage 4: the parameter words are all read and the instruction executes, or the step fails. -/
theorem runOp_cases (op : Op) (s : State) :
    ((∃ j : Nat, j < op.arity ∧ ¬ s.Valid (s.ip + 1 + j)) ∧ runOp op s = .next (s.fail .undefinedAddress)) ∨
    ∃ ps i, s.fetchParams op.arity = some ps ∧ op.build ps = some (i, []) ∧ i.rawWords = ps ∧ runOp op s = exec i s := by
  cases hp : s.fetchParams op.arity with
  | none =>
    refine .inl ⟨(State.readWords_eq_none_iff _ _ _).1 hp, ?_⟩
    simp [runOp, hp, raise]
  | some ps =>
    have hl := State.readWords_length hp
    obtain ⟨i, -, hb, hr⟩ := build_take (op := op) (ws := ps) (by omega)
    rw [List.take_of_length_le (by omega)] at hb hr
    exact .inr ⟨ps, i, rfl, hb, hr, runOp_eq_exec hp hb⟩

/-- The conditions under which a step is taken (40_engine_step.md R60). -/
theorem step_stepping {s : State} (h : s.Stepping) : step s = runStep s := by
  simp [step, engineStep, h.1, h.2]

theorem step_next_stepping {s t : State} (h : step s = .next t) : s.Stepping := by
  unfold step engineStep at h
  split at h
  · cases h
  · split at h
    · exact ⟨‹_›, ‹_›⟩
    · cases h
    · cases h

theorem runStep_limit {s : State} (h : s.LimitReached) : runStep s = .next (s.fail .stepLimitExceeded) := if_pos h

theorem runStep_noLimit {s : State} (h : ¬ s.LimitReached) : runStep s = runFetch s.countStep := if_neg h

theorem runFetch_valid {s : State} {w : Int} (h : s.memRead s.ip = some w) : runFetch s = runWord w s := by
  simp [runFetch, h]

theorem runFetch_invalid {s : State} (h : s.memRead s.ip = none) : runFetch s = .next (s.fail .undefinedAddress) := by
  simp [runFetch, h, raise]

theorem runWord_ok {w : Int} {op : Op} (s : State) (h : decodeOpcode w = .ok op) : runWord w s = runOp op s := by
  simp [runWord, h]

theorem runWord_error {w : Int} {e : Reject} (s : State) (h : decodeOpcode w = .error e) :
    runWord w s = .next (s.fail (rejectReason e)) := by
  simp [runWord, h, raise]

/-- Everything a step can do on a state it is taken on: it always answers a next state, and that state is a failure of
stage 0, a failure of stages 1, 2 or 4 with the step counted, or the execute stage of the decoded instruction. -/
theorem step_cases {s : State} (hs : s.Stepping) : ∃ t, step s = .next t ∧
    ((s.LimitReached ∧ t = s.fail .stepLimitExceeded) ∨
      (¬ s.LimitReached ∧ ¬ s.Valid s.ip ∧ t = s.countStep.fail .undefinedAddress) ∨
      (¬ s.LimitReached ∧ ∃ w e, s.memRead s.ip = some w ∧ decodeOpcode w = .error e ∧
        t = s.countStep.fail (rejectReason e)) ∨
      (¬ s.LimitReached ∧ ∃ w op, s.memRead s.ip = some w ∧ decodeOpcode w = .ok op ∧
        (∃ j : Nat, j < op.arity ∧ ¬ s.Valid (s.ip + 1 + j)) ∧ t = s.countStep.fail .undefinedAddress) ∨
      (¬ s.LimitReached ∧ ∃ w op ps i, s.memRead s.ip = some w ∧ decodeOpcode w = .ok op ∧
        s.fetchParams op.arity = some ps ∧ op.build ps = some (i, []) ∧ i.rawWords = ps ∧
        exec i s.countStep = .next t)) := by
  rw [step_stepping hs]
  by_cases hl : s.LimitReached
  · exact ⟨_, runStep_limit hl, .inl ⟨hl, rfl⟩⟩
  rw [runStep_noLimit hl]
  by_cases hv : s.Valid s.ip
  · have hr : s.countStep.memRead s.countStep.ip = some (s.mem.read s.ip.toNat) := State.memRead_valid hv
    rw [runFetch_valid hr]
    cases hd : decodeOpcode (s.mem.read s.ip.toNat) with
    | error e =>
      exact ⟨_, runWord_error _ hd, .inr (.inr (.inl ⟨hl, _, e, State.memRead_valid hv, hd, rfl⟩))⟩
    | ok op =>
      rw [runWord_ok _ hd]
      rcases runOp_cases op s.countStep with ⟨hj, h⟩ | ⟨ps, i, hp, hb, hw, h⟩
      · exact ⟨_, h, .inr (.inr (.inr (.inl ⟨hl, _, op, State.memRead_valid hv, hd, hj, rfl⟩)))⟩
      · obtain ⟨t, ht, -⟩ := exec_cases i s.countStep
        exact ⟨t, h.trans ht,
          .inr (.inr (.inr (.inr ⟨hl, _, op, ps, i, State.memRead_valid hv, hd, s.countStep_fetchParams _ ▸ hp, hb, hw, ht⟩)))⟩
  · have hr : s.countStep.memRead s.countStep.ip = none := (State.memRead_eq_none_iff _ _).2 hv
    exact ⟨_, runFetch_invalid hr, .inr (.inl ⟨hl, hv, rfl⟩)⟩

end Sys2Proof.Machine
end

