-- ==== Sys2Proof/Tests/Slice0.lean ====
section
/-! SUPPORT. Tests. Expected results are the spec's (95_test_vectors.md, 30_encoding.md R53), never the model's; the
witnesses of the second part show for each statement of the Obligations file that has hypotheses that they can be met. -/

namespace Sys2Proof.Tests

open Sys2Proof.Machine

/-! ## Helpers -/

/-- The next state of an outcome, or the reset state. -/
def stateOf : Result → State
  | .next t => t
  | .fault _ => State.reset
  | .refused _ => State.reset

/-- The outcome is a next state. -/
def isNext : Result → Bool
  | .next _ => true
  | .fault _ => false
  | .refused _ => false

theorem next_of_isNext {r : Result} (h : isNext r = true) : r = .next (stateOf r) := by
  cases r <;> first | rfl | cases h

/-- The start state of program `p` with input `xs` on the core with parameters `c`. -/
def startOn (c : Params) (p xs : List Int) : State := stateOf ((State.resetWith c).boot p xs)

/-- The start state on the default core. -/
def start (p xs : List Int) : State := startOn Params.default p xs

/-- The default core with a step limit. -/
def limited (n : Nat) : Params := { Params.default with stepLimit := some n }

/-- The default core with 16-bit words and a memory that fits them. -/
def narrowCore : Params := { Params.default with w := 16, memDepth := 1024 }

/-- The state after one step. -/
def after (s : State) : State := stateOf (step s)

/-- The cells of the load range. -/
def cells (t : State) : List Int := (List.range t.len).map t.mem.read

/-! ## WellFormed refuses an ill-formed term for each of its checks (30_encoding.md R43; 2^63 does not fit 64 bits) -/

theorem test_wellFormed_add : Instr.wellFormed Params.default (.add (.position 0) (.immediate (-1)) 4) = true ∧
    Instr.wellFormed Params.default (.add (.position (2 ^ 63)) (.immediate 0) 0) = false ∧
    Instr.wellFormed Params.default (.add (.position 0) (.immediate (2 ^ 63)) 0) = false ∧
    Instr.wellFormed Params.default (.add (.position 0) (.immediate 0) (-(2 ^ 63) - 1)) = false := by decide

theorem test_wellFormed_mul : Instr.wellFormed Params.default (.mul (.immediate (2 ^ 63)) (.position 0) 0) = false ∧
    Instr.wellFormed Params.default (.mul (.immediate 0) (.position (2 ^ 63)) 0) = false ∧
    Instr.wellFormed Params.default (.mul (.immediate 0) (.position 0) (2 ^ 63)) = false := by decide

theorem test_wellFormed_in_out : Instr.wellFormed Params.default (.inp (2 ^ 63)) = false ∧
    Instr.wellFormed Params.default (.out (.immediate (2 ^ 63))) = false ∧
    Instr.wellFormed Params.default (.out (.position (2 ^ 63))) = false := by decide

theorem test_wellFormed_jumps : Instr.wellFormed Params.default (.jt (.immediate (2 ^ 63)) (.immediate 0)) = false ∧
    Instr.wellFormed Params.default (.jt (.immediate 0) (.immediate (2 ^ 63))) = false ∧
    Instr.wellFormed Params.default (.jf (.immediate (2 ^ 63)) (.immediate 0)) = false ∧
    Instr.wellFormed Params.default (.jf (.immediate 0) (.immediate (2 ^ 63))) = false := by decide

theorem test_wellFormed_compare : Instr.wellFormed Params.default (.lt (.immediate (2 ^ 63)) (.immediate 0) 0) = false ∧
    Instr.wellFormed Params.default (.lt (.immediate 0) (.immediate (2 ^ 63)) 0) = false ∧
    Instr.wellFormed Params.default (.lt (.immediate 0) (.immediate 0) (2 ^ 63)) = false ∧
    Instr.wellFormed Params.default (.eq (.immediate (2 ^ 63)) (.immediate 0) 0) = false ∧
    Instr.wellFormed Params.default (.eq (.immediate 0) (.immediate (2 ^ 63)) 0) = false ∧
    Instr.wellFormed Params.default (.eq (.immediate 0) (.immediate 0) (2 ^ 63)) = false := by decide

/-- The constraints of 00_scope.md R5, R6, R8, one refused parameter each. -/
theorem test_params_wf : Params.default.wf ∧ ¬ Params.wf { Params.default with w := 15 } ∧
    ¬ Params.wf { Params.default with memDepth := 0 } ∧ ¬ Params.wf { Params.default with memDepth := 2 ^ 63 - 3 } ∧
    Params.wf { Params.default with memDepth := 2 ^ 63 - 4 } ∧ ¬ Params.wf { Params.default with inMax := 0 } := by decide

/-! ## Decoding: words written out from 30_encoding.md R42, R53, one and more per instruction -/

theorem test_decode_add : decode [1101, -5, 5, 0, 99] = .ok (.add (.immediate (-5)) (.immediate 5) 0, [99]) := rfl
theorem test_decode_add_position : decode [1, 9, 10, 3] = .ok (.add (.position 9) (.position 10) 3, []) := rfl
/-- 30_encoding.md R58: `MUL [4], #3, [4]` assembles to `1002, 4, 3, 4`. -/
theorem test_decode_mul : decode [1002, 4, 3, 4] = .ok (.mul (.position 4) (.immediate 3) 4, []) := rfl
theorem test_decode_in : decode [3, 21, 1008] = .ok (.inp 21, [1008]) := rfl
theorem test_decode_out : decode [104, 999] = .ok (.out (.immediate 999), []) := rfl
theorem test_decode_jt : decode [1005, 20, 22] = .ok (.jt (.position 20) (.immediate 22), []) := rfl
theorem test_decode_jf : decode [106, 0, 36] = .ok (.jf (.immediate 0) (.position 36), []) := rfl
theorem test_decode_lt : decode [107, 8, 21, 20] = .ok (.lt (.immediate 8) (.position 21) 20, []) := rfl
theorem test_decode_eq : decode [1008, 21, 8, 20] = .ok (.eq (.position 21) (.immediate 8) 20, []) := rfl
theorem test_decode_hlt : decode [199] = .ok (.hlt, []) := rfl
theorem test_decode_rejects : decode [103, 0] = .error .invalidParameterMode ∧
    decode [2104, 0] = .error .invalidParameterMode ∧ decode [33] = .error .unknownOpcode ∧
    decode [-1] = .error .unknownOpcode ∧ decode [1, 0, 0] = .error .missingWord := ⟨rfl, rfl, rfl, rfl, rfl⟩
/-- 30_encoding.md R58: the assembler's words. -/
theorem test_encode : encode (.mul (.position 4) (.immediate 3) 4) = [1002, 4, 3, 4] ∧ encode (.jf (.immediate 0) (.immediate 36)) = [1106, 0, 36] ∧
    encode (.inp 21) = [3, 21] ∧ encode .hlt = [99] := by decide

/-- Every row of the opcode table, its canonical word given as a number, operand words 0. -/
theorem test_decodeTableWord : decodeTableWord 64 1 = some (.add (.position 0) (.position 0) 0) ∧
    decodeTableWord 64 2 = some (.mul (.position 0) (.position 0) 0) ∧ decodeTableWord 64 3 = some (.inp 0) ∧
    decodeTableWord 8 4 = some (.out (.position 0)) ∧ decodeTableWord 64 5 = some (.jt (.position 0) (.position 0)) ∧
    decodeTableWord 64 6 = some (.jf (.position 0) (.position 0)) ∧
    decodeTableWord 256 (7 + 5 * 2 ^ 64) = some (.lt (.position 5) (.position 0) 0) ∧
    decodeTableWord 64 8 = some (.eq (.position 0) (.position 0) 0) ∧ decodeTableWord 64 99 = some .hlt ∧
    decodeTableWord 64 (2 ^ 64 - 1) = none := by decide

/-- The step after reset runs the placed instruction: its register effect shows which one ran (40_engine_step.md R72). -/
theorem test_withFetchWord : (after (State.reset.withFetchWord 64 1)).mem.read 0 = 2 ∧
    (after (State.reset.withFetchWord 64 2)).mem.read 0 = 4 ∧
    (after (State.reset.withFetchWord 64 3)).failReason = .inputExhausted ∧
    (after (State.reset.withFetchWord 64 4)).out = [4] ∧ (after (State.reset.withFetchWord 64 5)).ip = 5 ∧
    (after (State.reset.withFetchWord 64 6)).ip = 3 ∧ (after (State.reset.withFetchWord 64 7)).mem.read 0 = 0 ∧
    (after (State.reset.withFetchWord 64 8)).mem.read 0 = 1 ∧ (after (State.reset.withFetchWord 64 99)).run = .halted := by
  decide

/-! ## One step of each instruction (95_test_vectors.md sections 1, 3 and 4) -/

/-- Section 3: opposite signs, the result over the instruction's own opcode word. -/
theorem test_add_own_opcode : (cells (after (start [1101, -5, 5, 0, 99] [])), (after (start [1101, -5, 5, 0, 99] [])).ip) =
    ([0, -5, 5, 0, 99], 4) := by decide
/-- Section 3: `MAXW + 1`, and a bad `dst` outranks the overflow. -/
theorem test_add_overflow : (after (start [1101, 9223372036854775807, 1, 0, 99] [])).statusPort = (2, 6) ∧
    (after (start [1101, 9223372036854775807, 1, 9, 99] [])).statusPort = (2, 3) ∧
    (after (start [1101, 9223372036854775807, -9223372036854775808, 0, 99] [])).mem.read 0 = -1 := by decide
/-- V5: the store becomes the next opcode word. -/
theorem test_mul_self_write : cells (after (start [1002, 4, 3, 4, 33] [])) = [1002, 4, 3, 4, 99] := by decide
/-- Section 4, `W = 16`: 200 * 200 does not fit, 181 * 181 does. -/
theorem test_mul_narrow : (after (startOn narrowCore [1102, 200, 200, 0, 99] [])).failReason = .arithmeticOverflow ∧
    (after (startOn narrowCore [1102, 181, 181, 0, 99] [])).mem.read 0 = 32761 := by decide
/-- Section 3: the first of two inputs; a bad `dst` consumes nothing and outranks the empty input. -/
theorem test_in : (cells (after (start [3, 0, 3, 1, 99] [1, 2])), (after (start [3, 0, 3, 1, 99] [1, 2])).inHead) =
    ([1, 0, 3, 1, 99], 1) := by decide
theorem test_in_fails : (after (start [3, 0, 99] [])).failReason = .inputExhausted ∧
    (after (start [3, 5, 99] [])).failReason = .undefinedAddress ∧ (after (start [3, 5, 99] [7])).inHead = 0 ∧
    (after (start [103, 0, 99] [7])).failReason = .invalidParameterMode := by decide
/-- Section 3: an immediate negative output; a position source outside the load range. -/
theorem test_out : (after (start [104, -5, 4, 1, 99] [])).out = [-5] ∧ (after (start [4, 2, 99] [])).out = [99] ∧
    (after (start [4, 3, 99] [])).failReason = .undefinedAddress := by decide
/-- Section 3: taken on a negative word; not taken with a harmless immediate target. -/
theorem test_jt : (after (start [1105, -3, 3, 99] [])).ip = 3 ∧ (after (start [1105, 0, 100, 99] [])).ip = 3 ∧
    (after (start [1105, 1, -7] [])).ip = -7 := by decide
/-- Section 3: not taken, yet the position target is resolved and fails. -/
theorem test_jt_target : (after (start [105, 0, 100, 99] [])).failReason = .undefinedAddress ∧
    (after (start [105, 0, 100, 99] [])).ip = 0 := by decide
/-- Section 3: position, position; and not taken. -/
theorem test_jf : (after (start [6, 3, 4, 0, 5, 99] [])).ip = 5 ∧ (after (start [1106, 1, 5, 104, 1, 99] [])).ip = 3 := by
  decide
/-- Section 3: signed comparison; equal gives 0. -/
theorem test_lt : (after (start [1107, -1, 0, 0, 99] [])).mem.read 0 = 1 ∧
    (after (start [1107, 0, -1, 0, 99] [])).mem.read 0 = 0 ∧ (after (start [1107, 5, 5, 0, 99] [])).mem.read 0 = 0 := by decide
/-- Section 3: two different cells; the same cell twice. -/
theorem test_eq : (after (start [8, 0, 1, 0, 99] [])).mem.read 0 = 0 ∧ (after (start [8, 4, 4, 0, 99] [])).mem.read 0 = 1 := by
  decide
/-- Section 3: `IP` stays on the HLT; the step is counted. -/
theorem test_hlt : ((after (start [99] [])).run, (after (start [99] [])).ip, (after (start [99] [])).steps) = (.halted, 0, 1) := by
  decide
/-- Section 4: missing parameter words; the empty program; the step limits 0 and 1. -/
theorem test_engine_failures : (after (start [1] [])).failReason = .undefinedAddress ∧
    (after (start [1, 0, 0] [])).failReason = .undefinedAddress ∧ (after (start [] [])).failReason = .undefinedAddress ∧
    (after (startOn (limited 0) [99] [])).failReason = .stepLimitExceeded ∧
    (after (startOn (limited 0) [99] [])).steps = 0 ∧ (after (startOn (limited 1) [99] [])).run = .halted := by decide
/-- `60_exceptions.md` R91, R105: what the host reads of a run that has ended, on the ports. -/
theorem test_ports : (after (start [99] [])).debugRead 0 = some 99 ∧ (start [99] []).debugRead 0 = none ∧
    (after (start [99] [])).result = some (.ok []) ∧ (after (start [98] [])).result = some (.error .unknownOpcode) := by
  refine ⟨by decide, by decide, rfl, rfl⟩
/-- A write of 0 removes the entry; memory stays in canonical form (log entry 4). -/
theorem test_memory_canonical : Memory.write [(1, 5), (3, 7)] 2 6 = [(1, 5), (2, 6), (3, 7)] ∧
    Memory.write [(1, 5), (3, 7)] 3 0 = [(1, 5)] ∧ Memory.wf [(1, 5), (3, 7)] = true ∧ Memory.wf [(3, 7), (1, 5)] = false ∧
    Memory.wf [(1, 0)] = false := by decide

end Sys2Proof.Tests
end

