-- ==== Sys2Proof/Tests/Witnesses.lean ====
section
/-! SUPPORT. For each statement of Certificates/Slice0/Obligations.lean that has hypotheses, a named theorem that shows a
concrete state and operands which meet all of them together, clause by clause. -/

namespace Sys2Proof.Tests

open Sys2Proof.Machine

/-- A small state on which a step is taken: `ADD #2, #3, [0]`, then HLT. -/
def adding : State := start [1101, 2, 3, 0, 99] [7]

theorem adding_inv : adding.Inv where
  params := by decide
  memWf := by decide
  memWithin := by decide
  len := by decide
  inputBound := by decide
  inputFits := by decide
  inHead := by decide
  ip := by decide
  reason := by decide
  outFits := by decide
  steps := fun _ h => by cases h
  held := by decide

theorem digits_legal {q : Nat} (h : modesLegal q = true) : ∀ i, digit q i ≤ 1 := (modesLegal_iff q).1 h

theorem adding_steps : adding.Stepping ∧ ¬ adding.LimitReached := by decide

/-! ## Encoding -/

theorem witness_DigitsPastTheNumeralAreZero : (21 : Nat) ≠ 0 ∧ ndigits 21 ≤ 2 := by decide

/-- The last clauses: three negative parameters of an ADD, and a negative cell read as data. -/
theorem witness_NegativeOpcodeWordsAreUnknown : ((start [-1] []).Stepping ∧ ¬ (start [-1] []).LimitReached ∧
    (start [-1] []).memRead (start [-1] []).ip = some (-1) ∧ (-1 : Int) < 0) ∧
    (decodeOpcode 101 = .ok (.add .immediate .position) ∧ [(-1 : Int), -2, -3].length = (Op.add .immediate .position).arity) ∧
    (start [-1] []).Valid 0 ∧ (start [-1] []).mem.read (0 : Int).toNat = -1 := by decide

/-- The leftmost digit of `2101`: the quotient 21 has two digits, and its digit 1 is 2. -/
theorem witness_EveryModeDigitIsChecked : (start [2101] []).Stepping ∧ ¬ (start [2101] []).LimitReached ∧
    (start [2101] []).memRead (start [2101] []).ip = some 2101 ∧ (0 : Int) ≤ 2101 ∧
    1 < ndigits ((2101 : Int).toNat / 100) ∧ digit ((2101 : Int).toNat / 100) 1 ≠ 0 ∧
    digit ((2101 : Int).toNat / 100) 1 ≠ 1 := by decide

theorem witness_OperationsOutsideTheMapFail : (start [98] []).Stepping ∧ ¬ (start [98] []).LimitReached ∧
    (start [98] []).memRead (start [98] []).ip = some 98 ∧ (0 : Int) ≤ 98 ∧
    (∀ i, digit ((98 : Int).toNat / 100) i ≤ 1) ∧ (98 : Int).toNat % 100 ∉ operationCodes ∧
    (decodeOpcode 7 = .ok (.lt .position .position) ∧ [(0 : Int), 98, 9].length = (Op.lt .position .position).arity) ∧
    (start [98] []).Valid 0 ∧ (start [98] []).mem.read (0 : Int).toNat = 98 :=
  ⟨by decide, by decide, by decide, by decide, digits_legal (by decide), by decide, by decide, by decide, by decide⟩

theorem witness_ExcessModeDigitsSelectNothing : (∀ k, digit 101 k ≤ 1) ∧ (∃ k, 2 ≤ digit 21 k) ∧
    ((0 : Int) ≤ 10001 ∧ (10001 : Int).toNat % 100 ∈ [1, 2, 7, 8] ∧ digit ((10001 : Int).toNat / 100) 2 = 1) ∧
    ((0 : Int) ≤ 103 ∧ (103 : Int).toNat % 100 = 3 ∧ digit ((103 : Int).toNat / 100) 0 = 1) :=
  ⟨digits_legal (by decide), ⟨1, by decide⟩, by decide, by decide⟩

theorem witness_DecodedWordsAreTheEncodedOnes :
    decode [101101, 2, 3, 0, 99] = .ok (.add (.immediate 2) (.immediate 3) 0, [99]) := rfl

/-! ## The step -/

theorem witness_StepRunsTheDecodedInstruction : adding.Stepping ∧ ¬ adding.LimitReached ∧
    adding.readWords adding.ip 5 = some [1101, 2, 3, 0, 99] ∧
    decode [1101, 2, 3, 0, 99] = .ok (.add (.immediate 2) (.immediate 3) 0, [99]) :=
  ⟨by decide, by decide, by decide, rfl⟩

theorem witness_DecodedInstructionsAreWellFormed : adding.Inv ∧ adding.readWords 0 4 = some [1101, 2, 3, 0] ∧
    decode [1101, 2, 3, 0] = .ok (.add (.immediate 2) (.immediate 3) 0, []) :=
  ⟨adding_inv, by decide, rfl⟩

theorem witness_StepIsTotalExactlyWhileRunning : adding.Stepping ∧ ¬ State.reset.Stepping ∧
    ¬ (after (start [99] [])).Stepping := by decide

theorem witness_NoStepAfterTheEndOrInReset :
    ((after (start [99] [])).rst = .released ∧ (after (start [99] [])).run = .halted) ∧
    ((after (start [98] [])).rst = .released ∧ (after (start [98] [])).run = .failed) ∧
    State.reset.rst ≠ .released := by decide

/-- The states of the clauses below, with the opcode word each fetches: on each a step is taken and no limit is reached. -/
theorem witness_StepReportsTheFirstCause_states :
    (∀ p ∈ ([[-250], [250], [9], [199], [10001], [103], [1, 0, 0], [1101, 2, 3, 5, 99], [3, 0]] : List (List Int)),
      (start p []).Stepping ∧ ¬ (start p []).LimitReached ∧ (start p []).memRead (start p []).ip = p.head?) ∧
    (∀ p ∈ ([[1101, 32767, 1, 0], [1102, -32768, -1, 0]] : List (List Int)),
      (startOn narrowCore p []).Stepping ∧ ¬ (startOn narrowCore p []).LimitReached ∧
        (startOn narrowCore p []).memRead (startOn narrowCore p []).ip = p.head?) := by decide

/-- The limit; an opcode fetch at `LEN` (a boundary); a negative word; a digit 2. -/
theorem witness_StepReportsTheFirstCause_fetch_and_decode :
    ((startOn (limited 0) [99] []).Stepping ∧ (startOn (limited 0) [99] []).LimitReached) ∧
    ((start [] []).Stepping ∧ ¬ (start [] []).LimitReached ∧ ¬ (start [] []).Valid (start [] []).ip) ∧
    (-250 : Int) < 0 ∧ ((0 : Int) ≤ 250 ∧ ∃ i, 2 ≤ digit ((250 : Int).toNat / 100) i) :=
  ⟨by decide, by decide, by decide, by decide, ⟨0, by decide⟩⟩

/-- Operation 9, next to the last of the map; HLT; an immediate write-target of ADD and of IN. -/
theorem witness_StepReportsTheFirstCause_operation :
    ((0 : Int) ≤ 9 ∧ (∀ i, digit ((9 : Int).toNat / 100) i ≤ 1) ∧ (9 : Int).toNat % 100 ∉ operationCodes) ∧
    ((0 : Int) ≤ 199 ∧ (∀ i, digit ((199 : Int).toNat / 100) i ≤ 1) ∧ (199 : Int).toNat % 100 = 99) ∧
    ((0 : Int) ≤ 10001 ∧ (∀ i, digit ((10001 : Int).toNat / 100) i ≤ 1) ∧ (10001 : Int).toNat % 100 ∈ [1, 2, 7, 8] ∧
      digit ((10001 : Int).toNat / 100) 2 = 1) ∧
    ((0 : Int) ≤ 103 ∧ (∀ i, digit ((103 : Int).toNat / 100) i ≤ 1) ∧ (103 : Int).toNat % 100 = 3 ∧
      digit ((103 : Int).toNat / 100) 0 = 1) :=
  ⟨⟨by decide, digits_legal (by decide), by decide⟩, ⟨by decide, digits_legal (by decide), by decide⟩,
    ⟨by decide, digits_legal (by decide), by decide, by decide⟩,
    ⟨by decide, digits_legal (by decide), by decide, by decide⟩⟩

/-- The last parameter word missing; a write-target at `LEN`; an overflowing sum and product; an empty input. -/
theorem witness_StepReportsTheFirstCause_execute :
    (decodeOpcode 1 = .ok (.add .position .position) ∧ 2 < (Op.add .position .position).arity ∧
      ¬ (start [1, 0, 0] []).Valid ((start [1, 0, 0] []).ip + 1 + (2 : Nat))) ∧
    (decodeOpcode 1101 = .ok (.add .immediate .immediate) ∧
      (start [1101, 2, 3, 5, 99] []).fetchParams 3 = some [2, 3, 5] ∧
      (Op.add .immediate .immediate).build [2, 3, 5] = some (.add (.immediate 2) (.immediate 3) 5, []) ∧
      ¬ (start [1101, 2, 3, 5, 99] []).OperandsValid (.add (.immediate 2) (.immediate 3) 5)) ∧
    ((startOn narrowCore [1101, 32767, 1, 0] []).fetchParams 3 = some [32767, 1, 0] ∧
      (Op.add .immediate .immediate).build [32767, 1, 0] = some (.add (.immediate 32767) (.immediate 1) 0, []) ∧
      (startOn narrowCore [1101, 32767, 1, 0] []).OperandsValid (.add (.immediate 32767) (.immediate 1) 0) ∧
      ¬ fits 16 (32767 + 1)) ∧
    (decodeOpcode 1102 = .ok (.mul .immediate .immediate) ∧
      (startOn narrowCore [1102, -32768, -1, 0] []).fetchParams 3 = some [-32768, -1, 0] ∧
      (Op.mul .immediate .immediate).build [-32768, -1, 0] = some (.mul (.immediate (-32768)) (.immediate (-1)) 0, []) ∧
      (startOn narrowCore [1102, -32768, -1, 0] []).OperandsValid (.mul (.immediate (-32768)) (.immediate (-1)) 0) ∧
      ¬ fits 16 (-32768 * -1)) ∧
    (decodeOpcode 3 = .ok .inp ∧ (start [3, 0] []).fetchParams 1 = some [0] ∧ Op.inp.build [0] = some (.inp 0, []) ∧
      (start [3, 0] []).OperandsValid (.inp 0) ∧ (start [3, 0] []).inHead = (start [3, 0] []).inLen) :=
  ⟨⟨rfl, by decide, by decide⟩, ⟨rfl, by decide⟩, by decide, ⟨rfl, by decide⟩, ⟨rfl, by decide⟩⟩

theorem witness_FailuresArePrecise :
    (step (start [98] []) = .next (after (start [98] [])) ∧ (after (start [98] [])).run = .failed) ∧
    (step (startOn (limited 0) [99] []) = .next (after (startOn (limited 0) [99] [])) ∧
      (after (startOn (limited 0) [99] [])).run = .failed) :=
  ⟨⟨next_of_isNext (by decide), by decide⟩, next_of_isNext (by decide), by decide⟩

theorem witness_HaltedOnlyByAHaltWord : step (start [199] []) = .next (after (start [199] [])) ∧
    (after (start [199] [])).run = .halted := ⟨next_of_isNext (by decide), by decide⟩

theorem witness_StepsCountsTheStepsBegun :
    (step (startOn (limited 0) [99] []) = .next (after (startOn (limited 0) [99] [])) ∧
      (startOn (limited 0) [99] []).LimitReached) ∧
    (step adding = .next (after adding) ∧ ¬ adding.LimitReached) :=
  ⟨⟨next_of_isNext (by decide), by decide⟩, next_of_isNext (by decide), by decide⟩

/-- `JT #1, #0` for ever (95_test_vectors.md P5): after one step it still runs. -/
theorem witness_StepLimitCutsTheRunExactly :
    ((startOn (limited 0) [99] []).Stepping ∧ (startOn (limited 0) [99] []).LimitReached) ∧
    (¬ adding.LimitReached ∧ step adding = .next (after adding)) ∧
    ((start [1105, 1, 0] []).params.stepLimit = none ∧ (start [1105, 1, 0] []).steps = 0 ∧
      (start [1105, 1, 0] []).Stepping) ∧
    (runSteps 1 (start [1105, 1, 0] []) = .next (after (start [1105, 1, 0] [])) ∧
      (after (start [1105, 1, 0] [])).run = .running) :=
  ⟨by decide, ⟨by decide, next_of_isNext (by decide)⟩, by decide, rfl, by decide⟩

/-! ## Invariants, reset, load -/

theorem witness_StepKeepsTheInvariants : adding.Inv ∧ step adding = .next (after adding) :=
  ⟨adding_inv, next_of_isNext (by decide)⟩

theorem witness_ResetSatisfiesTheInvariants : narrowCore.wf := by decide

theorem reset_inv : State.reset.Inv where
  params := by decide
  memWf := by decide
  memWithin := by decide
  len := by decide
  inputBound := by decide
  inputFits := by decide
  inHead := by decide
  ip := by decide
  reason := by decide
  outFits := by decide
  steps := fun _ h => by cases h
  held := by decide

theorem witness_HostTransactionsKeepTheInvariants : State.reset.Inv ∧
    (isNext (State.reset.loadProgram [99]) = true ∧ isNext (State.reset.loadInput [7]) = true) ∧
    isNext (stateOf ((stateOf (State.reset.loadProgram [99])).loadInput [7])).releaseRst = true :=
  ⟨reset_inv, by decide, by decide⟩

theorem witness_RunsKeepTheStatedInvariants : State.reset.Inv ∧
    State.reset.boot [1101, 2, 3, 0, 99] [7] = .next adding ∧ runSteps 1 adding = .next (after adding) ∧
    ((1 : Nat) = 0 + 1 ∧ runSteps 0 adding = .next adding ∧ (after adding).run = .running ∧
      (after adding).ip = adding.ip + 1 + (3 : Nat)) ∧
    (0 ≤ 1 ∧ runSteps 0 adding = .next adding) :=
  ⟨reset_inv, next_of_isNext (by decide), rfl, ⟨rfl, rfl, by decide, by decide⟩, by decide, rfl⟩

/-- The largest word as a program word, the smallest as an input word. -/
theorem witness_BootGivesTheStartState : State.reset.mem.wf = true ∧
    [9223372036854775807, 0].length ≤ State.reset.params.memDepth ∧
    [-9223372036854775808].length ≤ State.reset.params.inMax ∧ (∀ v ∈ ([9223372036854775807, 0] : List Int), fits State.reset.params.w v) ∧
    (∀ v ∈ ([-9223372036854775808] : List Int), fits State.reset.params.w v) := by decide

/-- A core with one cell and one input word, `rst` asserted and nothing loaded. -/
def tiny : State := State.resetWith { Params.default with memDepth := 1, inMax := 1 }

theorem witness_ForbiddenHostMovesAreRefused : adding.rst = .released ∧
    (tiny.rst = .asserted false false ∧ tiny.params.memDepth < [99, 99].length ∧ tiny.params.inMax < [0, 0].length) ∧
    ([9223372036854775808].length ≤ tiny.params.memDepth ∧ [9223372036854775808].length ≤ tiny.params.inMax ∧
      ∃ v ∈ ([9223372036854775808] : List Int), ¬ fits tiny.params.w v) ∧
    ([99].length ≤ tiny.params.memDepth ∧ ∀ v ∈ ([99] : List Int), fits tiny.params.w v) ∧
    ¬ (false = true ∧ false = true) ∧ isNext (tiny.assertRst.loadProgram [99]) = true ∧
    isNext (tiny.assertRst.loadInput [7]) = true := by
  decide

/-- A program loaded and no input, and an input loaded and no program. -/
theorem witness_ForbiddenHostMovesAreRefused_partial :
    (stateOf (tiny.loadProgram [99])).rst = .asserted true false ∧ ¬ (true = true ∧ false = true) ∧
    (stateOf (tiny.loadInput [7])).rst = .asserted false true ∧ ¬ (false = true ∧ true = true) := by decide

theorem witness_DebugPortWorksOnlyAfterTheRun : (adding.rst = .released ∧ adding.run = .running) ∧
    State.reset.rst ≠ .released ∧
    ((after (start [99] [])).rst = .released ∧ (after (start [99] [])).run ≠ .running ∧
      (after (start [99] [])).Valid 0 ∧ ¬ (after (start [99] [])).Valid 1) := by decide

/-! ## The instructions -/

theorem witness_AddStoresTheSum : adding.mem.wf = true ∧ sourceValue adding (.position 1) = some 2 ∧
    sourceValue adding (.immediate 3) = some 3 ∧ adding.Valid 4 ∧ fits adding.params.w (2 + 3) := by decide

theorem witness_MulStoresTheProduct : adding.mem.wf = true ∧ sourceValue adding (.position 1) = some 2 ∧
    sourceValue adding (.immediate 3) = some 3 ∧ adding.Valid 0 ∧ fits adding.params.w (2 * 3) := by decide

theorem witness_LtStoresTheComparison : adding.mem.wf = true ∧ sourceValue adding (.position 1) = some 2 ∧
    sourceValue adding (.position 4) = some 99 ∧ adding.Valid 4 := by decide

theorem witness_EqStoresTheComparison : adding.mem.wf = true ∧ sourceValue adding (.position 1) = some 2 ∧
    sourceValue adding (.immediate 2) = some 2 ∧ adding.Valid 4 := by decide

theorem witness_InStoresTheNextInput : adding.inHead < adding.inLen ∧ adding.mem.wf = true ∧ adding.Valid 4 := by decide

theorem witness_OutAppendsItsOperand : sourceValue adding (.position 4) = some 99 := by decide

theorem witness_JtJumpsOnAnyNonzeroWord : sourceValue adding (.immediate (-3)) = some (-3) ∧
    sourceValue adding (.position 3) = some 0 ∧ sourceValue adding (.position 4) = some 99 ∧ (-3 : Int) ≠ 0 := by decide

theorem witness_JfJumpsOnZeroOnly : sourceValue adding (.immediate (-3)) = some (-3) ∧
    sourceValue adding (.position 3) = some 0 ∧ sourceValue adding (.position 4) = some 99 ∧ (-3 : Int) ≠ 0 := by decide

theorem witness_ResultsAreExactOrOverflow : adding.mem.wf = true ∧
    sourceValue adding (.immediate 9223372036854775807) = some 9223372036854775807 ∧
    sourceValue adding (.immediate 1) = some 1 ∧ adding.Valid 0 ∧
    ¬ fits adding.params.w (9223372036854775807 + 1) ∧ fits adding.params.w (9223372036854775807 * 1) := by decide

theorem witness_SummaryOfTheIntegerLaws : (9223372036854775807 + 1 : Int) > maxW 64 ∧
    ((-9223372036854775808) * 2 : Int) < minW 64 ∧ adding.params.wf ∧ adding.len ≤ adding.params.memDepth ∧
    adding.Valid adding.ip ∧ 3 ≤ 3 := by decide

theorem witness_NegativeAddressesFail : (-1 : Int) < 0 ∧ (.position (-1) : Src) ∈ (Instr.jf (.immediate 0) (.position (-1))).sources ∧
    (Instr.eq (.immediate 0) (.immediate 0) (-1)).target = some (-1) ∧ (after (start [1105, 1, -1] [])).Stepping ∧
    ¬ (after (start [1105, 1, -1] [])).LimitReached ∧ (after (start [1105, 1, -1] [])).ip = -1 := by decide

theorem witness_JumpTargetsAreAlwaysResolved : ¬ adding.Valid 5 ∧ ¬ adding.Valid (-1) := by decide

theorem witness_BadJumpTargetsFailAtTheNextFetch : adding.Stepping ∧ sourceValue adding (.immediate 1) = some 1 ∧
    sourceValue adding (.immediate 0) = some 0 ∧ sourceValue adding (.immediate 5) = some 5 ∧ (1 : Int) ≠ 0 ∧
    ¬ adding.Valid 5 ∧ ¬ adding.LimitReached := by decide

/-- The executed instruction is the JT, taken, of `1105, 1, 4`, and the ADD of `adding`. -/
theorem witness_OnlyJumpsLeaveTheDefaultAdvance :
    (exec (.add (.immediate 2) (.immediate 3) 0) adding = .next (stateOf (execAdd (.immediate 2) (.immediate 3) 0 adding)) ∧
      (stateOf (execAdd (.immediate 2) (.immediate 3) 0 adding)).run = .running) ∧
    (exec (.jt (.immediate 1) (.immediate 4)) adding = .next (adding.setIp 4) ∧ (adding.setIp 4).run = .running) :=
  ⟨⟨next_of_isNext (by decide), by decide⟩, rfl, by decide⟩

theorem witness_FrameOfTheStoringInstructions :
    (Instr.inp 4).target = some 4 ∧ adding.mem.wf = true ∧ exec (.inp 4) adding = .next (stateOf (execIn 4 adding)) ∧
    (∃ c : Nat, (c : Int) ≠ 4) ∧
    ((Instr.inp 5).target = some 5 ∧ ¬ adding.Valid 5 ∧ exec (.inp 5) adding = .next (adding.fail .undefinedAddress)) :=
  ⟨rfl, by decide, next_of_isNext (by decide), ⟨5, by decide⟩, rfl, by decide, rfl⟩

theorem witness_FrameOfTheOtherInstructions :
    ((Instr.out (.immediate 7)).target = none ∧ exec (.out (.immediate 7)) adding = .next ((adding.emit 7).advance 1)) ∧
    (Instr.hlt.target = none ∧ exec .hlt adding = .next adding.halt) := ⟨⟨rfl, rfl⟩, rfl, rfl⟩

theorem witness_OutputPortCarriesTheOutWords :
    exec (.out (.immediate 7)) adding = .next ((adding.emit 7).advance 1) ∧ exec .hlt adding = .next adding.halt ∧
    ∀ a, Instr.hlt ≠ .out a := ⟨rfl, rfl, fun _ h => by cases h⟩

/-- ADD, 95_test_vectors.md section 3: `1101,90,9,4,0`. -/
theorem witness_StoresAreSeenByTheNextFetch :
    (start [1101, 90, 9, 4, 0] []).mem.wf = true ∧ (start [1101, 90, 9, 4, 0] []).Stepping ∧
    ¬ (start [1101, 90, 9, 4, 0] []).LimitReached ∧
    (start [1101, 90, 9, 4, 0] []).readWords (start [1101, 90, 9, 4, 0] []).ip 4 = some [1101, 90, 9, 4] ∧
    decode [1101, 90, 9, 4] = .ok (.add (.immediate 90) (.immediate 9) 4, []) ∧
    (start [1101, 90, 9, 4, 0] []).Valid 4 ∧ sourceValue (start [1101, 90, 9, 4, 0] []) (.immediate 90) = some 90 ∧
    sourceValue (start [1101, 90, 9, 4, 0] []) (.immediate 9) = some 9 ∧
    fits (start [1101, 90, 9, 4, 0] []).params.w (90 + 9) ∧
    (4 = (after (start [1101, 90, 9, 4, 0] [])).ip ∧ ¬ (after (start [1101, 90, 9, 4, 0] [])).LimitReached) :=
  ⟨by decide, by decide, by decide, by decide, rfl, by decide, by decide, by decide, by decide, by decide⟩

/-- MUL, 95_test_vectors.md V5: `1002,4,3,4,33`; and LT and EQ over the next opcode word. -/
theorem witness_StoresAreSeenByTheNextFetch_mul_lt_eq :
    (decode [1002, 4, 3, 4, 33] = .ok (.mul (.position 4) (.immediate 3) 4, [33]) ∧
      sourceValue (start [1002, 4, 3, 4, 33] []) (.position 4) = some 33 ∧
      fits (start [1002, 4, 3, 4, 33] []).params.w (33 * 3) ∧ 4 = (after (start [1002, 4, 3, 4, 33] [])).ip) ∧
    (decode [1107, 1, 2, 4, 0] = .ok (.lt (.immediate 1) (.immediate 2) 4, [0]) ∧
      4 = (after (start [1107, 1, 2, 4, 0] [])).ip) ∧
    (decode [1108, 1, 2, 4, 0] = .ok (.eq (.immediate 1) (.immediate 2) 4, [0]) ∧
      4 = (after (start [1108, 1, 2, 4, 0] [])).ip) :=
  ⟨⟨rfl, by decide, by decide, by decide⟩, ⟨rfl, by decide⟩, rfl, by decide⟩

/-- IN over the next instruction's opcode word (`3,2,0`) and over its parameter (`3,3,104,0`). -/
theorem witness_StoresAreSeenByTheNextFetch_in :
    (start [3, 2, 0] [99]).Stepping ∧ (start [3, 2, 0] [99]).readWords 0 3 = some [3, 2, 0] ∧
    decode [3, 2, 0] = .ok (.inp 2, [0]) ∧ (start [3, 2, 0] [99]).Valid 2 ∧
    (start [3, 2, 0] [99]).inHead < (start [3, 2, 0] [99]).inLen ∧ 2 = (after (start [3, 2, 0] [99])).ip ∧
    (start [3, 3, 104, 0] [7]).Valid 3 ∧ (after (start [3, 3, 104, 0] [7])).fetchParams 1 = some [7] ∧ 0 < 1 ∧
    3 = (after (start [3, 3, 104, 0] [7])).ip + 1 + (0 : Nat) :=
  ⟨by decide, by decide, rfl, by decide, by decide, by decide, by decide, by decide, by decide, by decide⟩

/-! ## Whole-machine rules -/

/-- The second memory holds 6 in cell 9, beyond `LEN = 5`. -/
theorem witness_CellsBeyondLenDoNotMatter : adding.mem.wf = true ∧ (adding.mem.write 9 6).wf = true ∧
    Memory.AgreeBelow adding.len adding.mem (adding.mem.write 9 6) ∧ adding.mem ≠ adding.mem.write 9 6 ∧
    step adding = .next (after adding) :=
  ⟨by decide, by decide, by decide, by decide, next_of_isNext (by decide)⟩

theorem witness_WiderWordsGiveTheSameRun : adding.Inv ∧ adding.params.w ≤ 128 ∧ runSteps 1 adding = .next (after adding) ∧
    (after adding).failReason ≠ .arithmeticOverflow :=
  ⟨adding_inv, by decide, rfl, by decide⟩

end Sys2Proof.Tests
end

/-! The number of decimal digits from below, and the statement on digits (00_scope.md R9, 30_encoding.md R46). -/

namespace Sys2Proof

@[simp] theorem ndigitsFuel_zero_right (fuel : Nat) : ndigitsFuel fuel 0 = 0 := by
  cases fuel <;> rfl

theorem ndigitsFuel_succ {q : Nat} (fuel : Nat) (h : q ≠ 0) :
    ndigitsFuel (fuel + 1) q = ndigitsFuel fuel (q / 10) + 1 := if_neg h

/-- Whatever the fuel, no digit is counted that the numeral does not have. -/
theorem pow_ndigitsFuel_le (fuel : Nat) {q : Nat} (h : q ≠ 0) : 10 ^ ndigitsFuel fuel q ≤ 10 * q := by
  induction fuel generalizing q with
  | zero => simp only [ndigitsFuel]; omega
  | succ fuel ih =>
    rw [ndigitsFuel_succ fuel h, Nat.pow_succ']
    refine Nat.mul_le_mul_left 10 ?_
    by_cases hq : q / 10 = 0
    · rw [hq, ndigitsFuel_zero_right]; omega
    · exact (ih hq).trans (Nat.mul_div_le q 10)

/-- The leading digit of a number that is not 0 is not 0. -/
theorem pow_ndigits_pred_le {q : Nat} (h : q ≠ 0) : 10 ^ (ndigits q - 1) ≤ q := by
  have hle : 10 ^ ndigits q ≤ 10 * q := pow_ndigitsFuel_le _ h
  cases hn : ndigits q with
  | zero => simp only [Nat.zero_sub, Nat.pow_zero]; omega
  | succ n =>
    rw [hn, Nat.pow_succ'] at hle
    exact Nat.le_of_mul_le_mul_left hle (by decide)

@[simp] theorem ndigits_zero : ndigits 0 = 0 := ndigitsFuel_zero_right _

/-- Settles O2: the upper bound and the default 0 are laws of the model's digits; the lower bound is by induction on the
digits counted. -/
theorem digitsPastTheNumeralAreZero : Obligations.DigitsPastTheNumeralAreZero := fun q _ =>
  ⟨rfl, lt_pow_ndigits q, pow_ndigits_pred_le, ndigits_zero, digit_of_ndigits_le⟩

end Sys2Proof

/-! A step as a failure or an effect of the execute stage, and what it therefore leaves unchanged. -/

namespace Sys2Proof.Machine

/-- Every step is a failure (60_exceptions.md R89), its step counted or not, or the effect of an instruction on the
state with the step counted. -/
theorem step_fails_or_effect {s t : State} (h : step s = .next t) :
    (∃ r, t = s.fail r ∨ t = s.countStep.fail r) ∨ ∃ i, Effect i s.countStep t := by
  obtain ⟨t', ht, hc⟩ := step_cases (step_next_stepping h)
  obtain rfl : t' = t := by simpa [ht] using h
  rcases hc with ⟨-, h⟩ | ⟨-, -, h⟩ | ⟨-, _, _, -, -, h⟩ | ⟨-, _, _, -, -, -, h⟩ | ⟨-, _, _, _, i, -, -, -, -, -, h⟩
  · exact .inl ⟨_, .inl h⟩
  · exact .inl ⟨_, .inr h⟩
  · exact .inl ⟨_, .inr h⟩
  · exact .inl ⟨_, .inr h⟩
  · obtain ⟨t'', ht', he⟩ := exec_cases i s.countStep
    obtain rfl : t'' = t' := by simpa [ht'] using h
    exact .inr ⟨i, he⟩

/-- The execute stage leaves the parameters of the core, and `FAIL_REASON` unless it fails (60_exceptions.md R89). -/
theorem Effect.params_reason {i : Instr} {s t : State} (h : Effect i s t) :
    t.params = s.params ∧ (t.run = .failed ∨ t.failReason = s.failReason) := by
  rcases h with ⟨_, -, rfl⟩ | ⟨_, _, -, -, -, -, rfl⟩ | ⟨_, _, -, -, -, rfl⟩ | ⟨_, _, -, -, rfl⟩ |
    ⟨_, _, _, -, -, rfl | rfl⟩ | ⟨-, rfl⟩
  · exact ⟨rfl, .inl rfl⟩
  all_goals exact ⟨rfl, .inr rfl⟩

/-- A step leaves the parameters of the core (10_state.md R23), and `FAIL_REASON` unless it fails. -/
theorem step_params_reason {s t : State} (h : step s = .next t) :
    t.params = s.params ∧ (t.run = .failed ∨ t.failReason = s.failReason) := by
  rcases step_fails_or_effect h with ⟨_, rfl | rfl⟩ | ⟨_, he⟩
  · exact ⟨rfl, .inl rfl⟩
  · exact ⟨rfl, .inl rfl⟩
  · exact he.params_reason

/-- A step keeps it that a reason stands only in a failed state (10_state.md R26). -/
theorem step_reason_failed {s t : State} {r : FailReason} (h : step s = .next t)
    (hs : s.failReason = r → s.run = .failed) : t.failReason = r → t.run = .failed := by
  intro ht
  rcases (step_params_reason h).2 with hf | hr
  · exact hf
  · have hrun : s.run = .running := (step_next_stepping h).2
    rw [hs (hr ▸ ht)] at hrun
    cases hrun

/-- A failed run stays as it is: no step follows (40_engine_step.md R62). -/
theorem runSteps_failed {s t : State} {k : Nat} (hs : s.run = .failed) (h : runSteps k s = .next t) : t = s := by
  cases k with
  | zero => cases h; rfl
  | succ k =>
    obtain ⟨u, hu, -⟩ := (runSteps_succ_eq_next_iff k s t).1 h
    have hrun : s.run = .running := (step_next_stepping hu).2
    rw [hs] at hrun
    cases hrun

end Sys2Proof.Machine

/-! A machine of wider words simulates a narrower one as long as that one does not overflow (00_scope.md R5,
41_arithmetic.md R75). The simulation `SameOnWider` is carried through the stages of a step one after another: only
`narrow` looks at the width. -/

namespace Sys2Proof

/-- The words of `w` bits are among those of more bits (00_scope.md R5). -/
theorem fits_mono {w w' : Nat} {v : Int} (hw : w ≤ w') (h : fits w v) : fits w' v := by
  have hpow : 2 ^ (w - 1) ≤ 2 ^ (w' - 1) := Nat.pow_le_pow_right (by decide) (by omega)
  unfold fits minW maxW at *
  omega

end Sys2Proof

namespace Sys2Proof.Machine

theorem narrow_mono {w w' : Nat} {r v : Int} (hw : w ≤ w') (h : narrow w r = some v) : narrow w' r = some v := by
  obtain ⟨hr, rfl⟩ := (narrow_eq_some_iff w r v).1 h
  exact (narrow_eq_some_iff w' v v).2 ⟨fits_mono hw hr, rfl⟩

/-! ## What does not depend on the width -/

@[simp] theorem State.withWidth_nextInput (s : State) (w : Nat) : (s.withWidth w).nextInput = s.nextInput := rfl

@[simp] theorem State.withWidth_fetchParams (s : State) (w n : Nat) :
    (s.withWidth w).fetchParams n = s.fetchParams n :=
  State.readWords_congr (s := s.withWidth w) (s' := s) rfl (fun _ _ => rfl) (s.ip + 1) n

@[simp] theorem withWidth_sourceValue (s : State) (w : Nat) (a : Src) :
    sourceValue (s.withWidth w) a = sourceValue s a :=
  sourceValue_congr (s := s.withWidth w) (s' := s) rfl (fun _ _ => rfl) a

/-! ## The simulation -/

/-- `r'` is the outcome `r` on words of `w` bits, unless `r` is an overflow. -/
def SameOnWider (w : Nat) (r r' : Result) : Prop :=
  ∀ t, r = .next t → t.failReason ≠ .arithmeticOverflow → r' = .next (t.withWidth w)

section

variable {w : Nat} {s : State}

theorem sameOnWider_next (w : Nat) (t : State) : SameOnWider w (.next t) (.next (t.withWidth w)) := by
  rintro _ ⟨⟩ -
  rfl

theorem sameOnWider_raise (w : Nat) (reason : FailReason) (s : State) :
    SameOnWider w (raise reason s) (raise reason (s.withWidth w)) := sameOnWider_next w (s.fail reason)

theorem sameOnWider_withSource (a : Src) {k k' : Int → Result} (hk : ∀ v, SameOnWider w (k v) (k' v)) :
    SameOnWider w (withSource a s k) (withSource a (s.withWidth w) k') := by
  cases ha : sourceValue s a with
  | none =>
    rw [withSource_none k ha, withSource_none k' ((withWidth_sourceValue s w a).trans ha)]
    exact sameOnWider_raise w .undefinedAddress s
  | some v =>
    rw [withSource_some k ha, withSource_some k' ((withWidth_sourceValue s w a).trans ha)]
    exact hk v

theorem sameOnWider_withTarget (dst : Int) {r r' : Result} (h : SameOnWider w r r') :
    SameOnWider w (withTarget dst s r) (withTarget dst (s.withWidth w) r') := by
  by_cases hd : s.Valid dst
  · rwa [withTarget_valid r hd, withTarget_valid (s := s.withWidth w) r' hd]
  · rw [withTarget_invalid r hd, withTarget_invalid (s := s.withWidth w) r' hd]
    exact sameOnWider_raise w .undefinedAddress s

/-- Where there is no result the narrower machine overflows, and nothing is claimed of the wider one. -/
theorem sameOnWider_commitResult (dst : Int) (s : State) {r r' : Option Int} (h : ∀ v, r = some v → r' = some v) :
    SameOnWider w (commitResult r dst s) (commitResult r' dst (s.withWidth w)) := by
  cases r with
  | none => rintro _ ⟨⟩ hno; exact absurd rfl hno
  | some v => rw [h v rfl]; exact sameOnWider_next w ((s.store dst v).advance 3)

/-! ## The nine instructions -/

theorem sameOnWider_execBinary {f f' : Int → Int → Option Int} (hf : ∀ x y v, f x y = some v → f' x y = some v)
    (a b : Src) (dst : Int) (s : State) :
    SameOnWider w (execBinary f a b dst s) (execBinary f' a b dst (s.withWidth w)) :=
  sameOnWider_withSource a fun x => sameOnWider_withSource b fun y =>
    sameOnWider_withTarget dst (sameOnWider_commitResult dst s (hf x y))

theorem sameOnWider_execJump (test : Int → Bool) (cond target : Src) (s : State) :
    SameOnWider w (execJump test cond target s) (execJump test cond target (s.withWidth w)) :=
  sameOnWider_withSource cond fun c => sameOnWider_withSource target fun t => by
    cases test c
    · exact sameOnWider_next w (s.advance 2)
    · exact sameOnWider_next w (s.setIp t)

theorem sameOnWider_execIn (dst : Int) (s : State) : SameOnWider w (execIn dst s) (execIn dst (s.withWidth w)) := by
  refine sameOnWider_withTarget dst ?_
  rw [State.withWidth_nextInput]
  cases s.nextInput with
  | none => exact sameOnWider_raise w .inputExhausted s
  | some v => exact sameOnWider_next w (((s.store dst v).consume).advance 1)

theorem sameOnWider_execOut (a : Src) (s : State) : SameOnWider w (execOut a s) (execOut a (s.withWidth w)) :=
  sameOnWider_withSource a fun v => sameOnWider_next w ((s.emit v).advance 1)

/-- Stages 5 to 7: of the nine instructions only ADD and MUL look at the width, and only by `narrow`. -/
theorem sameOnWider_exec (i : Instr) (hw : s.params.w ≤ w) :
    SameOnWider w (exec i s) (exec i (s.withWidth w)) := by
  cases i with
  | add a b dst => exact sameOnWider_execBinary (fun _ _ _ => narrow_mono hw) a b dst s
  | mul a b dst => exact sameOnWider_execBinary (fun _ _ _ => narrow_mono hw) a b dst s
  | inp dst => exact sameOnWider_execIn dst s
  | out a => exact sameOnWider_execOut a s
  | jt cond target => exact sameOnWider_execJump jumpsIfTrue cond target s
  | jf cond target => exact sameOnWider_execJump jumpsIfFalse cond target s
  | lt a b dst => exact sameOnWider_execBinary (fun _ _ _ h => h) a b dst s
  | eq a b dst => exact sameOnWider_execBinary (fun _ _ _ h => h) a b dst s
  | hlt => exact sameOnWider_next w s.halt

/-! ## The stages around them -/

theorem sameOnWider_runOp (op : Op) (hw : s.params.w ≤ w) : SameOnWider w (runOp op s) (runOp op (s.withWidth w)) := by
  unfold runOp
  rw [State.withWidth_fetchParams]
  cases (s.fetchParams op.arity).bind op.build with
  | none => exact sameOnWider_raise w .undefinedAddress s
  | some ib => exact sameOnWider_exec ib.1 hw

theorem sameOnWider_runWord (v : Int) (hw : s.params.w ≤ w) :
    SameOnWider w (runWord v s) (runWord v (s.withWidth w)) := by
  cases hd : decodeOpcode v with
  | error e => rw [runWord_error s hd, runWord_error _ hd]; exact sameOnWider_raise w (rejectReason e) s
  | ok op => rw [runWord_ok s hd, runWord_ok _ hd]; exact sameOnWider_runOp op hw

theorem sameOnWider_runFetch (hw : s.params.w ≤ w) : SameOnWider w (runFetch s) (runFetch (s.withWidth w)) := by
  cases hv : s.memRead s.ip with
  | none =>
    rw [runFetch_invalid hv, runFetch_invalid (s := s.withWidth w) hv]
    exact sameOnWider_raise w .undefinedAddress s
  | some v =>
    rw [runFetch_valid hv, runFetch_valid (s := s.withWidth w) hv]
    exact sameOnWider_runWord v hw

theorem sameOnWider_runStep (hw : s.params.w ≤ w) : SameOnWider w (runStep s) (runStep (s.withWidth w)) := by
  by_cases hl : s.LimitReached
  · rw [runStep_limit hl, runStep_limit (s := s.withWidth w) hl]
    exact sameOnWider_raise w .stepLimitExceeded s
  · rw [runStep_noLimit hl, runStep_noLimit (s := s.withWidth w) hl]
    exact sameOnWider_runFetch (s := s.countStep) hw

/-- A step that does not overflow is the same step on wider words. -/
theorem sameOnWider_step (hw : s.params.w ≤ w) : SameOnWider w (step s) (step (s.withWidth w)) := by
  intro t ht
  have hs : s.Stepping := step_next_stepping ht
  rw [step_stepping hs] at ht
  rw [step_stepping (s := s.withWidth w) hs]
  exact sameOnWider_runStep hw t ht

/-- A run is simulated step by step. An overflow before its last step would end it there, so the hypothesis on its last
state holds of every state on the way. -/
theorem sameOnWider_runSteps (k : Nat) (hw : s.params.w ≤ w)
    (hr : s.failReason = .arithmeticOverflow → s.run = .failed) :
    SameOnWider w (runSteps k s) (runSteps k (s.withWidth w)) := by
  induction k generalizing s with
  | zero => exact sameOnWider_next w s
  | succ k ih =>
    intro t ht hno
    obtain ⟨u, hu, hk⟩ := (runSteps_succ_eq_next_iff k s t).1 ht
    have hwu : u.params.w ≤ w := (step_params_reason hu).1 ▸ hw
    have hru := step_reason_failed hu hr
    have hnou : u.failReason ≠ .arithmeticOverflow := fun ho => by
      rw [runSteps_failed (hru ho) hk] at hno
      exact hno ho
    exact (runSteps_succ_eq_next_iff k _ _).2
      ⟨u.withWidth w, sameOnWider_step hw u hu hnou, ih hwu hru t hk hno⟩

end

/-- Settles O48, by a simulation carried through the stages of a step and an induction on the number of steps. -/
theorem widerWordsGiveTheSameRun : Obligations.WiderWordsGiveTheSameRun := fun s t w k hinv hw =>
  sameOnWider_runSteps k hw
    (fun ho => by
      by_contra hf
      rw [hinv.reason.2 hf] at ho
      cases ho) t

end Sys2Proof.Machine

/-! The instruction decoded from words that fit is well-formed (30_encoding.md R43): what makes it so is its raw words,
and they are among the words read. -/

namespace Sys2Proof

theorem Src.wellFormed_iff (p : Params) (a : Src) : a.wellFormed p = true ↔ fits p.w a.raw := by
  cases a <;> exact decide_eq_true_iff

theorem Instr.wellFormed_iff (p : Params) (i : Instr) : i.wellFormed p = true ↔ ∀ v ∈ i.rawWords, fits p.w v := by
  cases i <;> simp [Instr.wellFormed, Instr.rawWords, Src.wellFormed_iff, and_assoc]

/-- The raw words of an instruction are among the words it is built from. -/
theorem mem_of_mem_rawWords {op : Op} {ws rest : List Int} {i : Instr} (h : op.build ws = some (i, rest)) :
    ∀ v ∈ i.rawWords, v ∈ ws := by
  obtain ⟨i', hb, -, hr⟩ := Machine.build_take (Machine.build_eq_some h).1
  obtain rfl : i' = i := by rw [hb] at h; cases h; rfl
  rw [hr]
  exact fun v => List.mem_of_mem_take

/-- Words decode to an instruction where the first is a legal opcode word and the others are enough to build on. -/
theorem decode_eq_ok_iff (ws : List Int) (r : Instr × List Int) :
    decode ws = .ok r ↔ ∃ w ps op, ws = w :: ps ∧ decodeOpcode w = .ok op ∧ op.build ps = some r := by
  cases ws with
  | nil => simp [decode]
  | cons w ps =>
    rw [decode]
    cases hd : decodeOpcode w with
    | error e => simp [hd]
    | ok op => cases hb : op.build ps <;> simp [hd, hb]

end Sys2Proof

namespace Sys2Proof.Machine

/-- Settles O11: the raw words of the instruction are among the words read, and those fit. -/
theorem decodedInstructionsAreWellFormed : Obligations.DecodedInstructionsAreWellFormed := by
  intro s a n ws i rest hinv hws hd
  obtain ⟨w, ps, op, rfl, -, hb⟩ := (decode_eq_ok_iff ws (i, rest)).1 hd
  have hfit := State.fits_readWords hinv.memWithin hws
  exact (Instr.wellFormed_iff s.params i).2 fun v hv => hfit v (List.mem_cons_of_mem w (mem_of_mem_rawWords hb v hv))

end Sys2Proof.Machine

/-! Every state update of a step keeps the invariant of 10_state.md R26, under the guards the step has checked. -/

namespace Sys2Proof.Machine

theorem fits_one {w : Nat} (hw : 16 ≤ w) : fits w 1 := fits_mono hw (by decide)

theorem nextInput_eq_some {s : State} {v : Int} (h : s.nextInput = some v) : s.inHead < s.inLen ∧ v ∈ s.inq :=
  ⟨(List.getElem?_eq_some_iff.1 h).1, List.mem_of_getElem? h⟩

/-- The operand of a source fits if its raw word and the words of memory do (40_engine_step.md R69). -/
theorem fits_sourceValue {s : State} {a : Src} {v : Int} (hm : s.mem.Within s.params.w s.params.memDepth)
    (ha : fits s.params.w a.raw) (h : sourceValue s a = some v) : fits s.params.w v := by
  cases a with
  | immediate raw => cases h; exact ha
  | position raw =>
    obtain ⟨-, rfl⟩ := (State.memRead_eq_some_iff s raw v).1 h
    exact Memory.fits_read hm raw.toNat

/-- The constraint on `MEM_DEPTH` leaves room for the default advance past the last cell (00_scope.md R6). -/
theorem State.Inv.fits_advance {s : State} {n : Nat} (hs : s.Inv) (hip : s.Valid s.ip) (hn : n ≤ 3) :
    fits s.params.w (s.ip + 1 + n) := by
  obtain ⟨-, -, hdepth, -⟩ := hs.params
  have hlen := hs.len
  unfold fits minW maxW
  unfold State.Valid at hip
  omega

section

variable {s : State} (hs : s.Inv)

include hs

theorem State.Inv.store {dst v : Int} (hd : s.Valid dst) (hv : fits s.params.w v) : (s.store dst v).Inv :=
  have hlt : dst.toNat < s.params.memDepth := by
    have hlen := hs.len
    unfold State.Valid at hd
    omega
  { hs with
    memWf := Memory.wf_write dst.toNat v hs.memWf
    memWithin := Memory.within_write hs.memWithin hlt hv }

variable (hrst : s.rst = .released)

include hrst

theorem State.Inv.setIp {target : Int} (ht : fits s.params.w target) : (s.setIp target).Inv :=
  { hs with ip := ht, held := fun h => absurd hrst h }

theorem State.Inv.advance {n : Nat} (hip : s.Valid s.ip) (hn : n ≤ 3) : (s.advance n).Inv :=
  hs.setIp hrst (hs.fits_advance hip hn)

theorem State.Inv.emit {v : Int} (hv : fits s.params.w v) : (s.emit v).Inv :=
  { hs with
    outFits := List.forall_mem_append.2 ⟨hs.outFits, List.forall_mem_singleton.2 hv⟩
    held := fun h => absurd hrst h }

theorem State.Inv.consume (hh : s.inHead < s.inLen) : s.consume.Inv :=
  { hs with inHead := hh, held := fun h => absurd hrst h }

/-- The count stays within the limit because a step at the limit is refused (40_engine_step.md R64). -/
theorem State.Inv.countStep (hl : ¬ s.LimitReached) : s.countStep.Inv :=
  { hs with
    steps := fun n hn => by
      have hle := hs.steps n hn
      have hne : s.steps ≠ n := fun h => hl (hn.trans (congrArg some h.symm))
      change s.steps + 1 ≤ n
      omega
    held := fun h => absurd hrst h }

theorem State.Inv.halt (hrun : s.run = .running) : s.halt.Inv :=
  { hs with
    reason := iff_of_true (hs.reason.2 (by simp [hrun])) (by simp)
    held := fun h => absurd hrst h }

theorem State.Inv.fail {r : FailReason} (hr : r ≠ .none) : (s.fail r).Inv :=
  { hs with
    reason := iff_of_false hr (by simp)
    held := fun h => absurd hrst h }

/-- The execute stage keeps the invariant, on an instruction whose raw words fit. -/
theorem Effect.keeps_inv {i : Instr} {t : State} (hrun : s.run = .running) (hip : s.Valid s.ip)
    (hraw : ∀ v ∈ i.rawWords, fits s.params.w v) (h : Effect i s t) : t.Inv := by
  rcases h with ⟨r, hr, rfl⟩ | ⟨dst, v, -, -, hd, hv, rfl⟩ | ⟨dst, v, -, hd, hn, rfl⟩ | ⟨a, v, rfl, ha, rfl⟩ |
    ⟨c, a, v, hi, ha, ht⟩ | ⟨-, rfl⟩
  · exact hs.fail hrst (by rcases hr with rfl | rfl | rfl <;> simp)
  · have hfit : fits s.params.w v := by
      rcases hv with hv | rfl | rfl
      · exact hv
      · exact fits_zero _
      · exact fits_one hs.params.1
    exact (hs.store hd hfit).advance hrst hip (by decide)
  · obtain ⟨hh, hv⟩ := nextInput_eq_some hn
    exact ((hs.store hd (hs.inputFits v hv)).consume hrst hh).advance hrst hip (by decide)
  · have hfit := fits_sourceValue hs.memWithin (hraw a.raw (by simp [Instr.rawWords])) ha
    exact (hs.emit hrst hfit).advance hrst hip (by decide)
  · have hmem : a.raw ∈ i.rawWords := by rcases hi with rfl | rfl <;> simp [Instr.rawWords]
    rcases ht with rfl | rfl
    · exact hs.setIp hrst (fits_sourceValue hs.memWithin (hraw a.raw hmem) ha)
    · exact hs.advance hrst hip (by decide)
  · exact hs.halt hrst hrun

end

theorem rejectReason_ne_none (e : Reject) : rejectReason e ≠ .none := by
  cases e <;> simp [rejectReason]

/-- Every step, with its guards: refused by the limit; or counted and then a failure for a reason; or counted and then
the effect of an instruction whose opcode word is in a valid cell and whose raw words are those that follow it. -/
theorem step_next_cases {s t : State} (h : step s = .next t) :
    (s.LimitReached ∧ t = s.fail .stepLimitExceeded) ∨
    (¬ s.LimitReached ∧
      ((∃ r, r ≠ .none ∧ t = s.countStep.fail r) ∨
        (s.Valid s.ip ∧ ∃ i, s.fetchParams i.rawWords.length = some i.rawWords ∧ Effect i s.countStep t))) := by
  obtain ⟨t', ht, hc⟩ := step_cases (step_next_stepping h)
  obtain rfl : t' = t := by simpa [ht] using h
  rcases hc with ⟨hl, h⟩ | ⟨hl, -, h⟩ | ⟨hl, _, e, -, -, h⟩ | ⟨hl, _, _, -, -, -, h⟩ |
    ⟨hl, w, op, ps, i, hw, -, hps, hb, rfl, h⟩
  · exact .inl ⟨hl, h⟩
  · exact .inr ⟨hl, .inl ⟨_, by simp, h⟩⟩
  · exact .inr ⟨hl, .inl ⟨_, rejectReason_ne_none e, h⟩⟩
  · exact .inr ⟨hl, .inl ⟨_, by simp, h⟩⟩
  · obtain ⟨t'', ht', he⟩ := exec_cases i s.countStep
    obtain rfl : t'' = t' := by simpa [ht'] using h
    exact .inr ⟨hl, .inr ⟨((State.memRead_eq_some_iff s s.ip w).1 hw).1, i, (build_eq_some hb).2 ▸ hps, he⟩⟩

/-- Settles O19: a step is at most a count, then a failure or the effect of an instruction whose raw words, read from
memory, fit; each of them keeps the invariant. -/
theorem stepKeepsTheInvariants : Obligations.StepKeepsTheInvariants := by
  intro s t hs h
  obtain ⟨hrst, hrun⟩ := step_next_stepping h
  rcases step_next_cases h with ⟨-, rfl⟩ | ⟨hl, ⟨r, hr, rfl⟩ | ⟨hip, i, hps, he⟩⟩
  · exact hs.fail hrst (by simp)
  · exact (hs.countStep hrst hl).fail hrst hr
  · exact he.keeps_inv (hs.countStep hrst hl) hrst hrun hip (State.fits_readWords hs.memWithin hps)

end Sys2Proof.Machine

/-! What a step leaves unchanged, and what a run therefore keeps of what was loaded (10_state.md R26). -/

namespace Sys2Proof.Machine

/-- What the execute stage never changes, and that output is only ever appended (10_state.md R17 to R20). -/
theorem Effect.frame {i : Instr} {s t : State} (h : Effect i s t) :
    t.len = s.len ∧ t.inq = s.inq ∧ t.steps = s.steps ∧ s.out <+: t.out := by
  rcases h with ⟨_, -, rfl⟩ | ⟨_, _, -, -, -, -, rfl⟩ | ⟨_, _, -, -, -, rfl⟩ | ⟨_, v, -, -, rfl⟩ |
    ⟨_, _, _, -, -, rfl | rfl⟩ | ⟨-, rfl⟩
  case inr.inr.inr.inl => exact ⟨rfl, rfl, rfl, List.prefix_append s.out [v]⟩
  all_goals exact ⟨rfl, rfl, rfl, List.prefix_rfl⟩

/-- Settles O17: a refused step is a failure of the state as it was, any other acts on the state with the step counted,
and no instruction touches the count. -/
theorem stepsCountsTheStepsBegun : Obligations.StepsCountsTheStepsBegun := by
  intro s t h
  rcases step_next_cases h with ⟨hl, rfl⟩ | ⟨hl, ⟨r, -, rfl⟩ | ⟨-, i, -, he⟩⟩
  · exact ⟨fun _ => rfl, fun hn => absurd hl hn⟩
  · exact ⟨fun hn => absurd hn hl, fun _ => rfl⟩
  · obtain ⟨-, -, hsteps, -⟩ := he.frame
    exact ⟨fun hn => absurd hn hl, fun _ => hsteps⟩

/-- `t` is a later state of the run `s` is in: the parameters, `LEN` and the input are the same, and `OUT` begins with
what it was (10_state.md R26). -/
def Later (s t : State) : Prop := t.params = s.params ∧ t.len = s.len ∧ t.inq = s.inq ∧ s.out <+: t.out

theorem Later.refl (s : State) : Later s s := ⟨rfl, rfl, rfl, List.prefix_rfl⟩

theorem Later.trans (s t u : State) (h : Later s t) (h' : Later t u) : Later s u := by
  obtain ⟨hp, hl, hi, ho⟩ := h
  obtain ⟨hp', hl', hi', ho'⟩ := h'
  exact ⟨hp'.trans hp, hl'.trans hl, hi'.trans hi, ho.trans ho'⟩

theorem step_later (s t : State) (h : step s = .next t) : Later s t := by
  refine ⟨(step_params_reason h).1, ?_⟩
  rcases step_fails_or_effect h with ⟨_, rfl | rfl⟩ | ⟨_, he⟩
  · exact ⟨rfl, rfl, List.prefix_rfl⟩
  · exact ⟨rfl, rfl, List.prefix_rfl⟩
  · obtain ⟨hlen, hinq, -, hout⟩ := he.frame
    exact ⟨hlen, hinq, hout⟩

theorem runSteps_later (k : Nat) (s t : State) (h : runSteps k s = .next t) : Later s t :=
  runSteps_rel Later Later.refl Later.trans step_later k s t h

/-- A run cut at an earlier state: the steps that remain lead on from there. -/
theorem runSteps_sub {s u t : State} {j k : Nat} (hj : j ≤ k) (hu : runSteps j s = .next u)
    (ht : runSteps k s = .next t) : runSteps (k - j) u = .next t := by
  rwa [← Nat.add_sub_cancel' hj, runSteps_add, hu] at ht

/-- A step that does not end the run has fetched from a valid cell (40_engine_step.md R65). -/
theorem step_running_valid {s t : State} (h : step s = .next t) (hrun : t.run = .running) : s.Valid s.ip := by
  rcases step_next_cases h with ⟨-, rfl⟩ | ⟨-, ⟨r, -, rfl⟩ | ⟨hip, -⟩⟩
  · cases hrun
  · cases hrun
  · exact hip

/-- The boot sequence leaves a state that satisfies the invariant. -/
theorem State.Inv.boot {s t : State} {p xs : List Int} (hs : s.Inv) (h : s.boot p xs = .next t) : t.Inv := by
  obtain ⟨hp, hpf, hx, hxf, rfl⟩ := (State.boot_eq_next_iff p xs s t).1 h
  exact
    { params := hs.params
      memWf := Memory.wf_writeAll 0 p hs.memWf
      memWithin := Memory.within_writeAll hs.memWithin ((Nat.zero_add _).trans_le hp) hpf
      len := hp
      inputBound := hx
      inputFits := hxf
      inHead := Nat.zero_le _
      ip := fits_zero _
      reason := by simp
      outFits := fun _ h => by cases h
      steps := fun n _ => Nat.zero_le n
      held := fun h => absurd rfl h }

/-- The state after a run from boot satisfies the invariant and holds what was loaded. -/
theorem runSteps_boot {s s0 t : State} {p xs : List Int} {k : Nat} (hs : s.Inv) (hb : s.boot p xs = .next s0)
    (ht : runSteps k s0 = .next t) : t.Inv ∧ t.params = s.params ∧ t.len = p.length ∧ t.inq = xs := by
  obtain ⟨hp, hl, hi, -⟩ := runSteps_later k s0 t ht
  refine ⟨runSteps_keeps State.Inv stepKeepsTheInvariants k s0 t (hs.boot hb) ht, ?_⟩
  obtain ⟨-, -, -, -, rfl⟩ := (State.boot_eq_next_iff p xs s s0).1 hb
  exact ⟨hp, hl, hi⟩

/-- The bounds on `IP` after a default advance (10_state.md R26, item 4). -/
theorem ip_bounds_of_advance {s u t : State} {j k n : Nat} (hk : k = j + 1) (hu : runSteps j s = .next u)
    (ht : runSteps k s = .next t) (hrun : t.run = .running) (hn : n ≤ 3) (hip : t.ip = u.ip + 1 + n) :
    0 < t.ip ∧ t.ip ≤ t.len + 3 := by
  have hstep : step u = .next t := by
    have hrest := runSteps_sub (by omega) hu ht
    rw [hk, Nat.add_sub_cancel_left, runSteps_succ_eq_next_iff] at hrest
    obtain ⟨t', hstep, ⟨⟩⟩ := hrest
    exact hstep
  have hvalid := step_running_valid hstep hrun
  obtain ⟨-, hlen, -⟩ := step_later u t hstep
  unfold State.Valid at hvalid
  omega

/-- Settles O22: every state of the run satisfies the invariant, which gives the items on one state; the relation of a
state to the later ones gives the others. -/
theorem runsKeepTheStatedInvariants : Obligations.RunsKeepTheStatedInvariants := by
  intro s s0 t p xs k hs hb ht
  obtain ⟨hinv, hp, hl, hi⟩ := runSteps_boot hs hb ht
  refine ⟨⟨hinv.len, hp, hl, hi, congrArg List.length hi⟩, hinv.inHead, fun a _ => Memory.fits_read hinv.memWithin a,
    hinv.ip, fun u j n hk hu hrun hn hip => ip_bounds_of_advance hk hu ht hrun hn hip, hinv.reason, ?_, hinv.outFits,
    hinv.steps⟩
  intro u j hj hu
  obtain ⟨-, -, -, hout⟩ := runSteps_later (k - j) u t (runSteps_sub hj hu ht)
  exact hout

end Sys2Proof.Machine

/-! The start state, the reset state and the ports (10_state.md R24, R25; 70_reset_and_hazards.md R100). -/

namespace Sys2Proof.Machine

/-- Settles O23: both loads are taken, and the cells below `LEN` read the program word by word. -/
theorem bootGivesTheStartState : Obligations.BootGivesTheStartState := by
  intro s p xs hm hp hx hpf hxf
  refine ⟨_, (State.boot_eq_next_iff p xs s _).2 ⟨hp, hpf, hx, hxf, rfl⟩, rfl, rfl, rfl, rfl, rfl, ?_, rfl, rfl, rfl,
    rfl, rfl, rfl⟩
  intro a ha
  change (s.mem.writeAll 0 p).read a = p[a]
  rw [Memory.read_writeAll 0 a p hm, if_pos (by omega), Nat.sub_zero, List.getD_eq_getElem p 0 ha]

theorem State.resetWith_inv {p : Params} (hp : p.wf) : (State.resetWith p).Inv where
  params := hp
  memWf := rfl
  memWithin := fun _ h => by cases h
  len := Nat.zero_le _
  inputBound := Nat.zero_le _
  inputFits := fun _ h => by cases h
  inHead := Nat.le_refl 0
  ip := fits_zero _
  reason := iff_of_true rfl (by decide : RunState.running ≠ .failed)
  outFits := fun _ h => by cases h
  steps := fun n _ => Nat.zero_le n
  held := fun _ => ⟨rfl, rfl, rfl, rfl, rfl, rfl⟩

/-- Settles O20: the default parameters are legal, so the default core is a case of the general one. -/
theorem resetSatisfiesTheInvariants : Obligations.ResetSatisfiesTheInvariants :=
  ⟨State.resetWith_inv (p := Params.default) (by decide), fun _ hp => State.resetWith_inv hp⟩

/-- The output port carries what a step appends to `OUT`. -/
theorem outputPort_of_append {s t : State} {ws : List Int} (h : t.out = s.out ++ ws) : outputPort s t = ws := by
  rw [outputPort, h, List.drop_left]

/-- Only OUT writes the output (10_state.md R19). -/
theorem Effect.out_eq {i : Instr} {s t : State} (h : Effect i s t) (hi : ∀ a, i ≠ .out a) : t.out = s.out := by
  rcases h with ⟨_, -, rfl⟩ | ⟨_, _, -, -, -, -, rfl⟩ | ⟨_, _, -, -, -, rfl⟩ | ⟨a, _, ho, -, -⟩ |
    ⟨_, _, _, -, -, rfl | rfl⟩ | ⟨-, rfl⟩
  case inr.inr.inr.inl => exact absurd ho (hi a)
  all_goals rfl

/-- OUT appends its operand if it has one, and nothing if it fails (42_io.md R78). -/
theorem execOut_out {a : Src} {s t : State} (h : execOut a s = .next t) : t.out = s.out ++ (sourceValue s a).toList := by
  rcases execOut_cases a s with ⟨ha, he⟩ | ⟨v, ha, he⟩
  · obtain rfl : s.fail .undefinedAddress = t := by simpa [he] using h
    simp [ha]
  · obtain rfl : (s.emit v).advance 1 = t := by simpa [he] using h
    simp [ha]

/-- Settles O45: OUT appends its operand, no other instruction appends anything. -/
theorem outputPortCarriesTheOutWords : Obligations.OutputPortCarriesTheOutWords := by
  intro i s t h
  refine ⟨?_, fun hi => ?_⟩
  · rintro a rfl
    exact outputPort_of_append (execOut_out h)
  · obtain ⟨t', ht, he⟩ := exec_cases i s
    obtain rfl : t' = t := by simpa [ht] using h
    exact outputPort_of_append (by rw [he.out_eq hi, List.append_nil])

/-- Settles O26: the codes are the table's, and none of them is one of the unused codes. -/
theorem statusPortCodes : Obligations.StatusPortCodes := by
  refine ⟨⟨rfl, rfl, rfl⟩, ⟨rfl, rfl, rfl, rfl, rfl, rfl, rfl⟩, fun s => ⟨rfl, ?_, ?_⟩⟩
  · change s.run.code ≠ 3
    cases s.run <;> decide
  · change s.failReason.code ≠ 7
    cases s.failReason <;> decide

/-- While the run goes on, and while `rst` is held, the debug port answers nothing (70_reset_and_hazards.md R106). -/
theorem debugPort_closed {s : State} (h : s.rst ≠ .released ∨ s.run = .running) (a : Int) :
    s.debugRead a = none ∧ s.debugIp = none := by
  have hn : ¬ (s.rst = .released ∧ s.run ≠ .running) := fun ⟨hrst, hrun⟩ => h.elim (fun hr => hr hrst) hrun
  exact ⟨if_neg hn, if_neg hn⟩

/-- When the run has ended, the debug port's memory is the address controller's read (20_memory.md R31). -/
theorem debugPort_open {s : State} (hrst : s.rst = .released) (hrun : s.run ≠ .running) (a : Int) :
    s.debugRead a = s.memRead a ∧ s.debugIp = some s.ip :=
  ⟨if_pos ⟨hrst, hrun⟩, if_pos ⟨hrst, hrun⟩⟩

/-- Settles O27: the port is closed or open, and when open it reads as the address controller does. -/
theorem debugPortWorksOnlyAfterTheRun : Obligations.DebugPortWorksOnlyAfterTheRun := by
  intro s a
  refine ⟨fun h => debugPort_closed h a, fun hrst hrun => ?_⟩
  obtain ⟨hread, hip⟩ := debugPort_open hrst hrun a
  exact ⟨hip, fun hv => hread.trans (State.memRead_valid hv),
    fun hv => hread.trans ((State.memRead_eq_none_iff s a).2 hv)⟩

end Sys2Proof.Machine

/-! Cells at or beyond `LEN` play no part in a step (20_memory.md R28, 70_reset_and_hazards.md R105). The relation
`SameBelowLen` on two outcomes is carried through the stages of a step one after another: only a read and a store touch
memory, and both are checked against `LEN` first. -/

namespace Sys2Proof.Machine

/-- `m` can stand for the memory of `s`: both are canonical and they differ at most in cells at or beyond `LEN`. -/
structure AlikeBelowLen (s : State) (m : Memory) : Prop where
  wf : s.mem.wf = true
  wf' : m.wf = true
  agree : Memory.AgreeBelow s.len s.mem m

/-- `r` from `s` and `r'` from `s.withMem m` are the same outcome but for memory; the two memories agree below `LEN`, and
neither has changed from there on. -/
def SameBelowLen (s : State) (m : Memory) (r r' : Result) : Prop :=
  ∀ t, r = .next t → ∃ m', r' = .next (t.withMem m') ∧ Memory.AgreeBelow t.len t.mem m' ∧
    ∀ c, s.len ≤ c → t.mem.read c = s.mem.read c ∧ m'.read c = m.read c

@[simp] theorem State.withMem_nextInput (s : State) (m : Memory) : (s.withMem m).nextInput = s.nextInput := rfl

section

variable {s : State} {m : Memory} (h : AlikeBelowLen s m)

include h

/-! ## What does not depend on the cells at or beyond `LEN` -/

theorem AlikeBelowLen.memRead_withMem (a : Int) : (s.withMem m).memRead a = s.memRead a :=
  (State.memRead_congr (s := s) (s' := s.withMem m) rfl h.agree a).symm

theorem AlikeBelowLen.fetchParams_withMem (n : Nat) : (s.withMem m).fetchParams n = s.fetchParams n :=
  (State.readWords_congr (s := s) (s' := s.withMem m) rfl h.agree (s.ip + 1) n).symm

theorem AlikeBelowLen.sourceValue_withMem (a : Src) :
    sourceValue (s.withMem m) a = sourceValue s a :=
  (sourceValue_congr (s := s) (s' := s.withMem m) rfl h.agree a).symm

/-! ## The two things that happen to memory: nothing, or a store below `LEN` -/

theorem AlikeBelowLen.same_of_mem_eq {t : State} (hmem : t.mem = s.mem) (hlen : t.len = s.len) :
    SameBelowLen s m (.next t) (.next (t.withMem m)) := by
  rintro _ ⟨⟩
  exact ⟨m, rfl, by rw [hlen, hmem]; exact h.agree, fun c _ => ⟨by rw [hmem], rfl⟩⟩

theorem AlikeBelowLen.same_raise (reason : FailReason) :
    SameBelowLen s m (raise reason s) (raise reason (s.withMem m)) :=
  h.same_of_mem_eq (t := s.fail reason) rfl rfl

theorem AlikeBelowLen.same_of_store {t : State} {dst v : Int} (hd : s.Valid dst) (hmem : t.mem = s.mem.write dst.toNat v)
    (hlen : t.len = s.len) : SameBelowLen s m (.next t) (.next (t.withMem (m.write dst.toNat v))) := by
  rintro _ ⟨⟩
  refine ⟨m.write dst.toNat v, rfl, ?_, fun c hc => ?_⟩
  · rw [hlen, hmem]
    intro c hc
    rw [Memory.read_write _ c v h.wf, Memory.read_write _ c v h.wf', h.agree c hc]
  · have hne : c ≠ dst.toNat := by
      unfold State.Valid at hd
      omega
    rw [hmem]
    exact ⟨Memory.read_write_other v h.wf hne, Memory.read_write_other v h.wf' hne⟩

/-! ## The operands -/

theorem AlikeBelowLen.same_withSource (a : Src) {k k' : Int → Result} (hk : ∀ v, SameBelowLen s m (k v) (k' v)) :
    SameBelowLen s m (withSource a s k) (withSource a (s.withMem m) k') := by
  have hsrc := h.sourceValue_withMem a
  cases ha : sourceValue s a with
  | none =>
    rw [withSource_none k ha, withSource_none k' (hsrc.trans ha)]
    exact h.same_raise .undefinedAddress
  | some v =>
    rw [withSource_some k ha, withSource_some k' (hsrc.trans ha)]
    exact hk v

theorem AlikeBelowLen.same_withTarget {dst : Int} {r r' : Result} (hr : s.Valid dst → SameBelowLen s m r r') :
    SameBelowLen s m (withTarget dst s r) (withTarget dst (s.withMem m) r') := by
  by_cases hd : s.Valid dst
  · rw [withTarget_valid r hd, withTarget_valid (s := s.withMem m) r' hd]
    exact hr hd
  · rw [withTarget_invalid r hd, withTarget_invalid (s := s.withMem m) r' hd]
    exact h.same_raise .undefinedAddress

/-! ## The nine instructions -/

theorem AlikeBelowLen.same_commitResult (r : Option Int) {dst : Int} (hd : s.Valid dst) :
    SameBelowLen s m (commitResult r dst s) (commitResult r dst (s.withMem m)) := by
  cases r with
  | none => exact h.same_raise .arithmeticOverflow
  | some v => exact h.same_of_store (t := (s.store dst v).advance 3) hd rfl rfl

theorem AlikeBelowLen.same_execBinary (f : Int → Int → Option Int) (a b : Src) (dst : Int) :
    SameBelowLen s m (execBinary f a b dst s) (execBinary f a b dst (s.withMem m)) :=
  h.same_withSource a fun x => h.same_withSource b fun y => h.same_withTarget (h.same_commitResult (f x y))

theorem AlikeBelowLen.same_execJump (test : Int → Bool) (cond target : Src) :
    SameBelowLen s m (execJump test cond target s) (execJump test cond target (s.withMem m)) :=
  h.same_withSource cond fun c => h.same_withSource target fun t => by
    cases test c
    · exact h.same_of_mem_eq (t := s.advance 2) rfl rfl
    · exact h.same_of_mem_eq (t := s.setIp t) rfl rfl

theorem AlikeBelowLen.same_execIn (dst : Int) : SameBelowLen s m (execIn dst s) (execIn dst (s.withMem m)) :=
  h.same_withTarget fun hd => by
    rw [State.withMem_nextInput]
    cases s.nextInput with
    | none => exact h.same_raise .inputExhausted
    | some v => exact h.same_of_store (t := ((s.store dst v).consume).advance 1) hd rfl rfl

theorem AlikeBelowLen.same_execOut (a : Src) : SameBelowLen s m (execOut a s) (execOut a (s.withMem m)) :=
  h.same_withSource a fun v => h.same_of_mem_eq (t := (s.emit v).advance 1) rfl rfl

/-- Stages 5 to 7: the execute stage of an instruction of any kind. -/
theorem AlikeBelowLen.same_exec (i : Instr) : SameBelowLen s m (exec i s) (exec i (s.withMem m)) := by
  cases i with
  | add a b dst => exact h.same_execBinary (aluAdd s.params.w) a b dst
  | mul a b dst => exact h.same_execBinary (aluMul s.params.w) a b dst
  | inp dst => exact h.same_execIn dst
  | out a => exact h.same_execOut a
  | jt cond target => exact h.same_execJump jumpsIfTrue cond target
  | jf cond target => exact h.same_execJump jumpsIfFalse cond target
  | lt a b dst => exact h.same_execBinary _ a b dst
  | eq a b dst => exact h.same_execBinary _ a b dst
  | hlt => exact h.same_of_mem_eq (t := s.halt) rfl rfl

/-! ## The stages around them -/

theorem AlikeBelowLen.same_runOp (op : Op) : SameBelowLen s m (runOp op s) (runOp op (s.withMem m)) := by
  unfold runOp
  rw [h.fetchParams_withMem]
  cases (s.fetchParams op.arity).bind op.build with
  | none => exact h.same_raise .undefinedAddress
  | some ib => exact h.same_exec ib.1

theorem AlikeBelowLen.same_runWord (v : Int) : SameBelowLen s m (runWord v s) (runWord v (s.withMem m)) := by
  cases hd : decodeOpcode v with
  | error e =>
    rw [runWord_error s hd, runWord_error _ hd]
    exact h.same_raise (rejectReason e)
  | ok op =>
    rw [runWord_ok s hd, runWord_ok _ hd]
    exact h.same_runOp op

theorem AlikeBelowLen.same_runFetch : SameBelowLen s m (runFetch s) (runFetch (s.withMem m)) := by
  have hread := h.memRead_withMem s.ip
  cases hv : s.memRead s.ip with
  | none =>
    rw [runFetch_invalid hv, runFetch_invalid (s := s.withMem m) (hread.trans hv)]
    exact h.same_raise .undefinedAddress
  | some v =>
    rw [runFetch_valid hv, runFetch_valid (s := s.withMem m) (hread.trans hv)]
    exact h.same_runWord v

theorem AlikeBelowLen.countStep : AlikeBelowLen s.countStep m := ⟨h.wf, h.wf', h.agree⟩

theorem AlikeBelowLen.same_runStep : SameBelowLen s m (runStep s) (runStep (s.withMem m)) := by
  by_cases hl : s.LimitReached
  · rw [runStep_limit hl, runStep_limit (s := s.withMem m) hl]
    exact h.same_raise .stepLimitExceeded
  · rw [runStep_noLimit hl, runStep_noLimit (s := s.withMem m) hl]
    exact h.countStep.same_runFetch

theorem AlikeBelowLen.same_step : SameBelowLen s m (step s) (step (s.withMem m)) := by
  intro t ht
  have hs : s.Stepping := step_next_stepping ht
  rw [step_stepping hs] at ht
  rw [step_stepping (s := s.withMem m) hs]
  exact h.same_runStep t ht

end

/-- Settles O47, by the relation carried through the stages of a step: every address is checked against `LEN` before its
cell is read or written. -/
theorem cellsBeyondLenDoNotMatter : Obligations.CellsBeyondLenDoNotMatter := fun _ t _ hwf hwf' hagree =>
  AlikeBelowLen.same_step ⟨hwf, hwf', hagree⟩ t

end Sys2Proof.Machine

/-! The frames of the execute stage (20_memory.md R27, R32): what can become of a state, sorted by whether the
instruction has a write-target. -/

namespace Sys2Proof.Machine

/-- An instruction with the write-target `dst` fails, or stores to the valid cell `dst` and advances; IN consumes an
input word besides. -/
theorem Effect.of_target {i : Instr} {s t : State} {dst : Int} (h : Effect i s t) (hi : i.target = some dst) :
    (∃ r, t = s.fail r) ∨
    (s.Valid dst ∧ ∃ v, t = (s.store dst v).advance 3 ∨ i = .inp dst ∧ t = ((s.store dst v).consume).advance 1) := by
  rcases h with ⟨r, -, rfl⟩ | ⟨d, v, hd, -, hv, -, rfl⟩ | ⟨d, v, rfl, hv, -, rfl⟩ | ⟨a, v, rfl, -, -⟩ |
    ⟨c, a, v, hj, -, -⟩ | ⟨rfl, -⟩
  · exact .inl ⟨r, rfl⟩
  · obtain rfl : d = dst := Option.some.inj (hd.symm.trans hi)
    exact .inr ⟨hv, v, .inl rfl⟩
  · obtain rfl : d = dst := Option.some.inj hi
    exact .inr ⟨hv, v, .inr ⟨rfl, rfl⟩⟩
  · cases hi
  · rcases hj with rfl | rfl <;> cases hi
  · cases hi

/-- An instruction without a write-target fails, appends an output word, only moves `IP`, or halts. -/
theorem Effect.of_no_target {i : Instr} {s t : State} (h : Effect i s t) (hi : i.target = none) :
    (∃ r, t = s.fail r) ∨ (∃ a v, i = .out a ∧ t = (s.emit v).advance 1) ∨ (∃ target, t = s.setIp target) ∨
    (i = .hlt ∧ t = s.halt) := by
  rcases h with ⟨r, -, rfl⟩ | ⟨_, _, hd, -, -, -, -⟩ | ⟨_, _, rfl, -, -, -⟩ | ⟨a, v, rfl, -, rfl⟩ |
    ⟨_, _, v, -, -, rfl | rfl⟩ | hlt
  · exact .inl ⟨r, rfl⟩
  · rw [hi] at hd; cases hd
  · cases hi
  · exact .inr (.inl ⟨a, v, rfl, rfl⟩)
  · exact .inr (.inr (.inl ⟨v, rfl⟩))
  · exact .inr (.inr (.inl ⟨s.ip + 1 + 2, rfl⟩))
  · exact .inr (.inr (.inr hlt))

theorem exec_effect {i : Instr} {s t : State} (h : exec i s = .next t) : Effect i s t := by
  obtain ⟨t', ht, he⟩ := exec_cases i s
  obtain rfl : t' = t := by simpa [ht] using h
  exact he

/-- A store reaches no cell but the one whose address it is given (20_memory.md R32). -/
theorem State.store_read_other {s : State} {dst : Int} {c : Nat} (v : Int) (hm : s.mem.wf = true) (hd : s.Valid dst)
    (hc : (c : Int) ≠ dst) : (s.store dst v).mem.read c = s.mem.read c :=
  Memory.read_write_other v hm (by unfold State.Valid at hd; omega)

/-- Settles O43: the instruction fails and leaves memory, or stores to the valid cell `dst`. -/
theorem frameOfTheStoringInstructions : Obligations.FrameOfTheStoringInstructions := by
  intro i s t dst hi hm h
  rcases (exec_effect h).of_target hi with ⟨r, rfl⟩ | ⟨hd, v, rfl | ⟨rfl, rfl⟩⟩
  · exact ⟨fun _ _ => rfl, fun _ => rfl, rfl, rfl, rfl, rfl, rfl, rfl, fun _ => rfl, .inr ⟨rfl, rfl, rfl, rfl⟩⟩
  · exact ⟨fun _ hc => State.store_read_other v hm hd hc, fun hn => absurd hd hn, rfl, rfl, rfl, rfl, rfl, rfl,
      fun _ => rfl, .inl ⟨rfl, rfl⟩⟩
  · exact ⟨fun _ hc => State.store_read_other v hm hd hc, fun hn => absurd hd hn, rfl, rfl, rfl, rfl, rfl, rfl,
      fun hne => absurd rfl (hne dst), .inl ⟨rfl, rfl⟩⟩

/-- Settles O44: HLT is `State.halt`; OUT and the jumps fail, append an output word or move `IP`. -/
theorem frameOfTheOtherInstructions : Obligations.FrameOfTheOtherInstructions := by
  intro i s t hi h
  by_cases hlt : i = .hlt
  · subst hlt
    obtain rfl : s.halt = t := Host.Outcome.next.inj h
    exact ⟨fun _ => rfl, rfl, rfl, rfl, rfl, rfl, rfl, rfl, fun _ => rfl, fun _ => ⟨rfl, rfl⟩, fun hn => absurd rfl hn⟩
  · rcases (exec_effect h).of_no_target hi with ⟨r, rfl⟩ | ⟨a, v, rfl, rfl⟩ | ⟨target, rfl⟩ | ⟨rfl, -⟩
    · exact ⟨fun _ => rfl, rfl, rfl, rfl, rfl, rfl, rfl, rfl, fun _ => rfl, fun hi => absurd hi hlt,
        fun _ => .inr ⟨rfl, rfl, rfl⟩⟩
    · exact ⟨fun _ => rfl, rfl, rfl, rfl, rfl, rfl, rfl, rfl, fun hn => absurd rfl (hn a), fun hi => absurd hi hlt,
        fun _ => .inl ⟨rfl, rfl⟩⟩
    · exact ⟨fun _ => rfl, rfl, rfl, rfl, rfl, rfl, rfl, rfl, fun _ => rfl, fun hi => absurd hi hlt,
        fun _ => .inl ⟨rfl, rfl⟩⟩
    · exact absurd rfl hlt

end Sys2Proof.Machine

/-! An address that is not valid fails the instruction or the fetch that uses it (20_memory.md R31 to R33). -/

namespace Sys2Proof.Machine

/-- An instruction one of whose operands cannot be reached fails, whatever its form (40_engine_step.md R69, R70). -/
theorem exec_undefined_or_valid (i : Instr) (s : State) :
    exec i s = .next (s.fail .undefinedAddress) ∨ s.OperandsValid i := by
  have binary : ∀ f a b dst, i.sources = [a, b] → i.target = some dst → exec i s = execBinary f a b dst s →
      exec i s = .next (s.fail .undefinedAddress) ∨ s.OperandsValid i := by
    intro f a b dst hsrc htgt he
    rcases execBinary_cases f a b dst s with ⟨-, h⟩ | ⟨x, y, hx, hy, hd, -⟩
    · exact .inl (he.trans h)
    · exact .inr (by simpa [State.OperandsValid, hsrc, htgt, hx, hy] using hd)
  have jump : ∀ test c a, i.sources = [c, a] → i.target = none → exec i s = execJump test c a s →
      exec i s = .next (s.fail .undefinedAddress) ∨ s.OperandsValid i := by
    intro test c a hsrc htgt he
    rcases execJump_cases test c a s with ⟨-, h⟩ | ⟨x, y, hx, hy, -⟩
    · exact .inl (he.trans h)
    · exact .inr (by simp [State.OperandsValid, hsrc, htgt, hx, hy])
  cases i with
  | add a b dst => exact binary _ a b dst rfl rfl rfl
  | mul a b dst => exact binary _ a b dst rfl rfl rfl
  | lt a b dst => exact binary _ a b dst rfl rfl rfl
  | eq a b dst => exact binary _ a b dst rfl rfl rfl
  | jt c a => exact jump _ c a rfl rfl rfl
  | jf c a => exact jump _ c a rfl rfl rfl
  | inp dst =>
    rcases execIn_cases dst s with ⟨-, h⟩ | ⟨hd, -⟩ | ⟨_, hd, -⟩
    · exact .inl h
    · exact .inr (by simpa [State.OperandsValid, Instr.sources, Instr.target] using hd)
    · exact .inr (by simpa [State.OperandsValid, Instr.sources, Instr.target] using hd)
  | out a =>
    rcases execOut_cases a s with ⟨-, h⟩ | ⟨v, hv, -⟩
    · exact .inl h
    · exact .inr (by simp [State.OperandsValid, Instr.sources, Instr.target, hv])
  | hlt => exact .inr (by simp [State.OperandsValid, Instr.sources, Instr.target])

/-- An address that is not valid fails the instruction that names it as a source or as its write-target. -/
theorem exec_of_invalid_operand {i : Instr} {s : State} {a : Int} (ha : ¬ s.Valid a)
    (hi : .position a ∈ i.sources ∨ i.target = some a) : exec i s = .next (s.fail .undefinedAddress) := by
  refine (exec_undefined_or_valid i s).resolve_right fun ⟨hsrc, htgt⟩ => ?_
  rcases hi with hi | hi
  · have hread := hsrc _ hi
    rw [sourceValue_position, (State.memRead_eq_none_iff s a).2 ha] at hread
    cases hread
  · exact ha (htgt a hi)

/-- An `IP` that is not valid fails the fetch of the opcode word (40_engine_step.md R65). -/
theorem step_of_invalid_ip {s : State} (hs : s.Stepping) (hl : ¬ s.LimitReached) (hip : ¬ s.Valid s.ip) :
    step s = .next (s.countStep.fail .undefinedAddress) := by
  rw [step_stepping hs, runStep_noLimit hl]
  exact runFetch_invalid ((State.memRead_eq_none_iff s.countStep s.ip).2 hip)

theorem State.not_valid_of_neg (s : State) {a : Int} (ha : a < 0) : ¬ s.Valid a := fun hv => absurd ha (not_lt.2 hv.1)

/-- Settles O39: a negative address is not valid. -/
theorem negativeAddressesFail : Obligations.NegativeAddressesFail := fun s _ ha =>
  ⟨fun _ hi => exec_of_invalid_operand (s.not_valid_of_neg ha) hi,
    fun hs hl hip => step_of_invalid_ip hs hl (hip ▸ s.not_valid_of_neg ha)⟩

end Sys2Proof.Machine

/-! A store and the fetch after it (20_memory.md R41): the step of decoded words, the stored state, and what the next
instruction fetches from it. -/

namespace Sys2Proof.Machine

/-- The step of words that decode runs the execute stage of their instruction (40_engine_step.md R63): however many more
words are read than it has, the engine fetches just its own. -/
theorem step_eq_exec_of_decode {s : State} {n : Nat} {ws rest : List Int} {i : Instr} (hs : s.Stepping)
    (hl : ¬ s.LimitReached) (hws : s.readWords s.ip n = some ws) (hd : decode ws = .ok (i, rest)) :
    step s = exec i s.countStep := by
  obtain ⟨w, ps, op, rfl, hop, hb⟩ := (decode_eq_ok_iff ws (i, rest)).1 hd
  obtain rfl : ps.length + 1 = n := State.readWords_length hws
  obtain ⟨_, _, ⟨⟩, hw, hps⟩ := State.readWords_succ.1 hws
  have harity : op.arity ≤ ps.length := (build_eq_some hb).1
  obtain ⟨i', hb', htake, -⟩ := build_take harity
  obtain rfl : i' = i := by rw [hb'] at hb; cases hb; rfl
  have hfetch : s.countStep.fetchParams op.arity = some (ps.take op.arity) := by
    rw [State.countStep_fetchParams]
    exact State.readWords_append (k := ps.length - op.arity) (by rwa [Nat.add_sub_of_le harity])
  rw [step_stepping hs, runStep_noLimit hl, runFetch_valid (s := s.countStep) hw, runWord_ok _ hop]
  exact runOp_eq_exec hfetch htake

/-- `t` is `s` after a step that stored `v` in cell `dst` and moved `IP` past `n` parameter words, the run going on. -/
structure Stored (s : State) (dst v : Int) (n : Nat) (t : State) : Prop where
  mem : t.mem = s.mem.write dst.toNat v
  len : t.len = s.len
  ip : t.ip = s.ip + 1 + n
  rst : t.rst = s.rst
  run : t.run = s.run

/-- Two sources that can be read, a valid write-target and a result: the instruction stores it. -/
theorem execBinary_stores {f : Int → Int → Option Int} {a b : Src} {dst x y v : Int} {s : State}
    (ha : sourceValue s a = some x) (hb : sourceValue s b = some y) (hd : s.Valid dst) (hf : f x y = some v) :
    ∃ t, execBinary f a b dst s = .next t ∧ Stored s dst v 3 t := by
  refine ⟨(s.store dst v).advance 3, ?_, rfl, rfl, rfl, rfl, rfl⟩
  rw [execBinary, withSource_some _ ha, withSource_some _ hb, withTarget_valid _ hd, hf]
  rfl

theorem execIn_stores {dst v : Int} {s : State} (hd : s.Valid dst) (hn : s.nextInput = some v) :
    ∃ t, execIn dst s = .next t ∧ Stored s dst v 1 t := by
  refine ⟨((s.store dst v).consume).advance 1, ?_, rfl, rfl, rfl, rfl, rfl⟩
  rw [execIn, withTarget_valid _ hd, hn]

section

variable {s t : State} {dst v : Int} {n : Nat} (h : Stored s dst v n t)

include h

theorem Stored.stepping (hs : s.Stepping) : t.Stepping := ⟨h.rst.trans hs.1, h.run.trans hs.2⟩

theorem Stored.memRead (hm : s.mem.wf = true) (hd : s.Valid dst) : t.memRead dst = some v := by
  have hread : t.memRead dst = (s.store dst v).memRead dst :=
    State.memRead_congr (s' := s.store dst v) h.len (fun c _ => congrArg (·.read c) h.mem) dst
  rw [hread, State.memRead_store v hm hd]

end

/-- The word at `IP` is the opcode word of the next step (40_engine_step.md R65). -/
theorem step_eq_runWord {t : State} {v : Int} (ht : t.Stepping) (hl : ¬ t.LimitReached)
    (hv : t.memRead t.ip = some v) : step t = runWord v t.countStep := by
  rw [step_stepping ht, runStep_noLimit hl]
  exact runFetch_valid (s := t.countStep) hv

/-- Settles O46: each of the five instructions stores, and both kinds of fetch are reads of the cell stored to. -/
theorem storesAreSeenByTheNextFetch : Obligations.StoresAreSeenByTheNextFetch := by
  intro s i n ws rest dst v hm hs hl hws hdec hd hi
  have hstep : step s = exec i s.countStep := step_eq_exec_of_decode hs hl hws hdec
  have hstores : ∃ t, exec i s.countStep = .next t ∧ Stored s.countStep dst v i.rawWords.length t := by
    rcases hi with ⟨a, b, x, y, ha, hb, ⟨rfl, rfl, hfit⟩ | ⟨rfl, rfl, hfit⟩ | ⟨rfl, rfl⟩ | ⟨rfl, rfl⟩⟩ | ⟨rfl, hin, rfl⟩
    · exact execBinary_stores ha hb hd ((narrow_eq_some_iff _ _ _).2 ⟨hfit, rfl⟩)
    · exact execBinary_stores ha hb hd ((narrow_eq_some_iff _ _ _).2 ⟨hfit, rfl⟩)
    · exact execBinary_stores ha hb hd (congrArg some (lessWord_eq x y))
    · exact execBinary_stores ha hb hd (congrArg some (equalWord_eq x y))
    · exact execIn_stores hd (List.getElem?_eq_getElem hin)
  obtain ⟨t, ht, hst⟩ := hstores
  have hread : t.memRead dst = some v := hst.memRead hm hd
  refine ⟨t, hstep.trans ht, hst.stepping hs, hst.ip, hread, ?_, ?_⟩
  · rintro rfl hlim
    exact step_eq_runWord (hst.stepping hs) hlim hread
  · rintro k j ps hps hj rfl
    exact (State.readWords_getElem? hps hj).trans hread

end Sys2Proof.Machine

/-! Decimal digits below and above a place (00_scope.md R9): what the mode digits and the excess digits of one quotient
have to do with each other (30_encoding.md R46, R49). -/

namespace Sys2Proof

/-- A number has at most `n` digits exactly where it is below `10 ^ n`. -/
theorem ndigits_le_iff (q n : Nat) : ndigits q ≤ n ↔ q < 10 ^ n := by
  refine ⟨fun h => (lt_pow_ndigits q).trans_le (Nat.pow_le_pow_right (by decide) h), fun h => ?_⟩
  by_cases hq : q = 0
  · simp [hq]
  · have hpred : ndigits q - 1 < n := (Nat.pow_lt_pow_iff_right (by decide)).1 ((pow_ndigits_pred_le hq).trans_lt h)
    omega

theorem digit_div_pow (q n k : Nat) : digit (q / 10 ^ n) k = digit q (n + k) := by
  simp [digit, Nat.div_div_eq_div_mul, Nat.pow_add]

theorem digit_mod_pow (q n k : Nat) : digit (q % 10 ^ n) k = if k < n then digit q k else 0 := by
  split
  · have hn : 10 ^ n = 10 ^ k * 10 ^ (n - k) := by rw [← Nat.pow_add, Nat.add_sub_cancel' (by omega)]
    rw [digit, hn, Nat.mod_mul_right_div_self, Nat.mod_mod_of_dvd _ (dvd_pow_self 10 (by omega)), digit]
  · have hlow : ndigits (q % 10 ^ n) ≤ n := (ndigits_le_iff _ n).2 (Nat.mod_lt q (by positivity))
    exact digit_of_ndigits_le (by omega)

/-- Every digit of a number is legal where the digits of its low part and of its high part are. -/
theorem digits_le_one_iff_mod_div (q n : Nat) :
    (∀ k, digit q k ≤ 1) ↔ (∀ k, digit (q % 10 ^ n) k ≤ 1) ∧ ∀ k, digit (q / 10 ^ n) k ≤ 1 := by
  simp only [digit_mod_pow, digit_div_pow]
  refine ⟨fun h => ⟨fun k => ?_, fun k => h (n + k)⟩, fun ⟨hlow, hhigh⟩ k => ?_⟩
  · split
    · exact h k
    · exact Nat.zero_le 1
  · by_cases hk : k < n
    · simpa [hk] using hlow k
    · simpa [Nat.add_sub_cancel' (Nat.le_of_not_lt hk)] using hhigh (k - n)

theorem mod_ten_eq_digit (q : Nat) : q % 10 ^ 1 = digit q 0 := by simp

theorem mod_hundred_eq_digits (q : Nat) : q % 10 ^ 2 = digit q 0 + 10 * digit q 1 := by
  simp only [digit]; omega

theorem mod_thousand_eq_digits (q : Nat) : q % 10 ^ 3 = digit q 0 + 10 * digit q 1 + 100 * digit q 2 := by
  simp only [digit]; omega

end Sys2Proof

/-! What an opcode word says of an instruction: its row of the opcode map and the modes of its sources. With
`decodeOpcode_eq_ok_op_iff` the words that decode to it are its opcode words with legal excess digits
(30_encoding.md R49, R53, R57). -/

namespace Sys2Proof

/-- The mode of a source (30_encoding.md R47). -/
def Src.mode : Src → Mode
  | .position _ => .position
  | .immediate _ => .immediate

/-- The row of an instruction with the modes of its sources: what its opcode word says (30_encoding.md R52). -/
def Instr.op : Instr → Op
  | .add a b _ => .add a.mode b.mode
  | .mul a b _ => .mul a.mode b.mode
  | .inp _ => .inp
  | .out a => .out a.mode
  | .jt c t => .jt c.mode t.mode
  | .jf c t => .jf c.mode t.mode
  | .lt a b _ => .lt a.mode b.mode
  | .eq a b _ => .eq a.mode b.mode
  | .hlt => .hlt

@[simp] theorem Src.mode_ofMode (m : Mode) (v : Int) : (Src.ofMode m v).mode = m := by cases m <;> rfl

@[simp] theorem Src.ofMode_mode_raw (a : Src) : Src.ofMode a.mode a.raw = a := by cases a <;> rfl

theorem Instr.arity_op (i : Instr) : i.op.arity = i.rawWords.length := by cases i <;> rfl

/-! ## Building from the raw words -/

theorem build_op_rawWords (i : Instr) (rest : List Int) : i.op.build (i.rawWords ++ rest) = some (i, rest) := by
  cases i <;> simp [Instr.op, Instr.rawWords, Op.build]

theorem op_of_build {op : Op} {ws rest : List Int} {i : Instr} (h : op.build ws = some (i, rest)) : i.op = op := by
  unfold Op.build at h
  split at h <;> cases h <;> simp [Instr.op]

/-- An instruction is built from its own raw words and from no others (30_encoding.md R42). -/
theorem build_eq_some_iff (op : Op) (ws rest : List Int) (i : Instr) :
    op.build ws = some (i, rest) ↔ op = i.op ∧ ws = i.rawWords ++ rest := by
  constructor
  · intro h
    have hop : i.op = op := op_of_build h
    obtain ⟨i', hb, -, hr⟩ := Machine.build_take (Machine.build_eq_some h).1
    obtain ⟨rfl, rfl⟩ : i' = i ∧ ws.drop op.arity = rest := by simpa [hb] using h
    exact ⟨hop.symm, by rw [hr, List.take_append_drop]⟩
  · rintro ⟨rfl, rfl⟩
    exact build_op_rawWords i rest

/-- Every row with modes is that of an instruction: any words of the right number are its parameters. -/
theorem exists_op_eq (op : Op) : ∃ i : Instr, i.op = op := by
  obtain ⟨i, hb, -⟩ := Machine.build_append (op := op) [] (List.length_replicate (a := (0 : Int)))
  exact ⟨i, op_of_build hb⟩

/-! ## The row of the opcode map -/

/-- A legal digit selects the mode of a source exactly where it is the source's mode digit (30_encoding.md R47). -/
theorem mode_eq_modeOf_iff {q k : Nat} (a : Src) (h : digit q k ≤ 1) :
    a.mode = modeOf q k ↔ digit q k = a.modeDigit := by
  unfold modeOf
  cases a <;> split <;> simp [Src.mode, Src.modeDigit] <;> omega

/-- `decodeOperation_ok` with its converse: these rows and no others give a result (30_encoding.md R52). -/
theorem decodeOperation_ok_iff (n q : Nat) (op : Op) : decodeOperation n q = .ok op ↔
    (n = 1 ∧ digit q 2 ≠ 1 ∧ op = .add (modeOf q 0) (modeOf q 1)) ∨
    (n = 2 ∧ digit q 2 ≠ 1 ∧ op = .mul (modeOf q 0) (modeOf q 1)) ∨
    (n = 3 ∧ digit q 0 ≠ 1 ∧ op = .inp) ∨
    (n = 4 ∧ op = .out (modeOf q 0)) ∨
    (n = 5 ∧ op = .jt (modeOf q 0) (modeOf q 1)) ∨
    (n = 6 ∧ op = .jf (modeOf q 0) (modeOf q 1)) ∨
    (n = 7 ∧ digit q 2 ≠ 1 ∧ op = .lt (modeOf q 0) (modeOf q 1)) ∨
    (n = 8 ∧ digit q 2 ≠ 1 ∧ op = .eq (modeOf q 0) (modeOf q 1)) ∨
    (n = 99 ∧ op = .hlt) := by
  refine ⟨decodeOperation_ok, ?_⟩
  rintro (⟨rfl, h, rfl⟩ | ⟨rfl, h, rfl⟩ | ⟨rfl, h, rfl⟩ | ⟨rfl, rfl⟩ | ⟨rfl, rfl⟩ | ⟨rfl, rfl⟩ | ⟨rfl, h, rfl⟩ |
    ⟨rfl, h, rfl⟩ | ⟨rfl, rfl⟩) <;>
    simp_all [decodeOperation]

section

variable {q : Nat} (hq : ∀ k, digit q k ≤ 1)

include hq

/-- One source: its mode is digit 0. -/
theorem one_source_digits (a : Src) : q % 10 ^ 1 = a.modeDigit ↔ a.mode = modeOf q 0 := by
  rw [mod_ten_eq_digit, mode_eq_modeOf_iff a (hq 0)]

/-- Two sources: their modes are the digits 0 and 1. -/
theorem two_sources_digits (a b : Src) :
    q % 10 ^ 2 = a.modeDigit + 10 * b.modeDigit ↔ a.mode = modeOf q 0 ∧ b.mode = modeOf q 1 := by
  rw [mod_hundred_eq_digits, mode_eq_modeOf_iff a (hq 0), mode_eq_modeOf_iff b (hq 1)]
  have := hq 0; have := a.modeDigit_le
  omega

/-- Two sources and a write-target, whose digit 2 is 0 (30_encoding.md R50). -/
theorem two_sources_target_digits (a b : Src) :
    q % 10 ^ 3 = a.modeDigit + 10 * b.modeDigit ↔ digit q 2 ≠ 1 ∧ a.mode = modeOf q 0 ∧ b.mode = modeOf q 1 := by
  rw [mod_thousand_eq_digits, mode_eq_modeOf_iff a (hq 0), mode_eq_modeOf_iff b (hq 1)]
  have := hq 0; have := hq 1; have := hq 2; have := a.modeDigit_le; have := b.modeDigit_le
  omega

/-- A write-target alone: its digit 0 is 0 (30_encoding.md R50). -/
theorem target_digit : q % 10 ^ 1 = 0 ↔ digit q 0 ≠ 1 := by
  rw [mod_ten_eq_digit]
  have := hq 0
  omega

/-- A legal quotient gives the row and modes of an instruction exactly where the digits of its parameters are the
instruction's (30_encoding.md R46, R50). -/
theorem decodeOperation_eq_ok_op_iff (n : Nat) (i : Instr) :
    decodeOperation n q = .ok i.op ↔ n = i.operation ∧ q % 10 ^ i.rawWords.length = i.modeDigits := by
  rw [decodeOperation_ok_iff]
  cases i with
  | add a b dst | mul a b dst | lt a b dst | eq a b dst =>
    refine Iff.trans ?_ (and_congr_right' (two_sources_target_digits hq a b)).symm
    simp [Instr.op, Instr.operation]
  | jt a b | jf a b =>
    refine Iff.trans ?_ (and_congr_right' (two_sources_digits hq a b)).symm
    simp [Instr.op, Instr.operation]
  | out a =>
    refine Iff.trans ?_ (and_congr_right' (one_source_digits hq a)).symm
    simp [Instr.op, Instr.operation]
  | inp dst =>
    refine Iff.trans ?_ (and_congr_right' (target_digit hq)).symm
    simp [Instr.op, Instr.operation]
  | hlt => simp [Instr.op, Instr.operation, Instr.rawWords, Instr.modeDigits, Nat.mod_one]

end

/-! ## The opcode words of an instruction -/

theorem Src.two_modeDigits_lt (a b : Src) : a.modeDigit + 10 * b.modeDigit < 10 ^ 2 := by
  have := a.modeDigit_le; have := b.modeDigit_le
  omega

theorem Src.two_modeDigits_legal (a b : Src) : ∀ k, digit (a.modeDigit + 10 * b.modeDigit) k ≤ 1 :=
  (modesLegal_iff _).1 (by cases a <;> cases b <;> simp only [Src.modeDigit] <;> decide)

/-- The mode digits of an instruction are those of its parameters. -/
theorem Instr.modeDigits_lt (i : Instr) : i.modeDigits < 10 ^ i.rawWords.length := by
  cases i with
  | add a b dst | mul a b dst | lt a b dst | eq a b dst => exact (a.two_modeDigits_lt b).trans (by simp [Instr.rawWords])
  | jt a b | jf a b => exact a.two_modeDigits_lt b
  | out a => exact a.modeDigit_le.trans_lt (by simp [Instr.rawWords])
  | inp dst | hlt => exact Nat.pow_pos (by decide)

/-- The mode digits of an instruction are legal (30_encoding.md R47). -/
theorem Instr.modeDigits_legal (i : Instr) : ∀ k, digit i.modeDigits k ≤ 1 := by
  cases i with
  | add a b dst | mul a b dst | lt a b dst | eq a b dst | jt a b | jf a b => exact a.two_modeDigits_legal b
  | out a => exact a.two_modeDigits_legal (.position 0)
  | inp dst | hlt => simp [Instr.modeDigits]

/-- The quotient of an opcode word is the mode digits of the parameters below the excess digits. -/
theorem opcodeWordWith_mod_div (e : Nat) (i : Instr) :
    (i.opcodeWordWith e).toNat / 100 % 10 ^ i.rawWords.length = i.modeDigits ∧
      (i.opcodeWordWith e).toNat / 100 / 10 ^ i.rawWords.length = e := by
  rw [opcodeWordWith_quotient]
  exact ⟨by rw [Nat.add_mul_mod_self_left, Nat.mod_eq_of_lt i.modeDigits_lt],
    by rw [Nat.add_mul_div_left _ _ (by positivity), Nat.div_eq_of_lt i.modeDigits_lt, Nat.zero_add]⟩

/-- The digits of an opcode word are legal exactly where its excess digits are (30_encoding.md R49). -/
theorem opcodeWordWith_legal_iff (e : Nat) (i : Instr) :
    (∀ k, digit ((i.opcodeWordWith e).toNat / 100) k ≤ 1) ↔ ∀ k, digit e k ≤ 1 := by
  obtain ⟨hmod, hdiv⟩ := opcodeWordWith_mod_div e i
  rw [digits_le_one_iff_mod_div _ i.rawWords.length, hmod, hdiv, and_iff_right i.modeDigits_legal]

/-- A word is an opcode word of `i` where its operation and the mode digits of its parameters are those of `i`. -/
theorem eq_opcodeWordWith {w : Int} {i : Instr} (hw : 0 ≤ w) (hop : w.toNat % 100 = i.operation)
    (hmode : w.toNat / 100 % 10 ^ i.rawWords.length = i.modeDigits) :
    w = i.opcodeWordWith (w.toNat / 100 / 10 ^ i.rawWords.length) := by
  rw [Instr.opcodeWordWith, ← hmode, Nat.mod_add_div, ← hop, Nat.mod_add_div, Int.toNat_of_nonneg hw]

/-- The words that decode to the row and modes of `i` are its opcode words with legal excess digits (30_encoding.md R49,
R53). -/
theorem decodeOpcode_eq_ok_op_iff (w : Int) (i : Instr) :
    decodeOpcode w = .ok i.op ↔ ∃ e, (∀ k, digit e k ≤ 1) ∧ w = i.opcodeWordWith e := by
  constructor
  · intro h
    obtain ⟨hw, hq, hrow⟩ := decodeOpcode_ok h
    obtain ⟨hop, hmode⟩ := (decodeOperation_eq_ok_op_iff hq _ i).1 hrow
    exact ⟨_, ((digits_le_one_iff_mod_div _ i.rawWords.length).1 hq).2, eq_opcodeWordWith hw hop hmode⟩
  · rintro ⟨e, he, rfl⟩
    have hq := (opcodeWordWith_legal_iff e i).2 he
    rw [decodeOpcode_legal (opcodeWordWith_nonneg e i) hq]
    exact (decodeOperation_eq_ok_op_iff hq _ i).2 ⟨opcodeWordWith_operation e i, (opcodeWordWith_mod_div e i).1⟩

/-- The words that decode to `i` are an opcode word of `i` with legal excess digits and its raw words (30_encoding.md
R42, R49, R57). -/
theorem decode_eq_ok_instr_iff (ws rest : List Int) (i : Instr) :
    decode ws = .ok (i, rest) ↔ ∃ e, (∀ k, digit e k ≤ 1) ∧ ws = i.opcodeWordWith e :: (i.rawWords ++ rest) := by
  simp only [decode_eq_ok_iff, build_eq_some_iff]
  constructor
  · rintro ⟨w, _, _, rfl, hw, rfl, rfl⟩
    obtain ⟨e, he, rfl⟩ := (decodeOpcode_eq_ok_op_iff w i).1 hw
    exact ⟨e, he, rfl⟩
  · rintro ⟨e, he, rfl⟩
    exact ⟨_, _, _, rfl, (decodeOpcode_eq_ok_op_iff _ i).2 ⟨e, he, rfl⟩, rfl, rfl⟩

/-- Settles O9: it is one direction of `decode_eq_ok_instr_iff`. -/
theorem decodedWordsAreTheEncodedOnes : Obligations.DecodedWordsAreTheEncodedOnes := fun ws i rest =>
  (decode_eq_ok_instr_iff ws rest i).1

/-- Settles O7: the canonical opcode word is the one whose excess digits are those of 0. -/
theorem decodeInvertsEncode : Obligations.DecodeInvertsEncode := fun i rest =>
  (decode_eq_ok_instr_iff _ rest i).2 ⟨0, by simp, rfl⟩

end Sys2Proof

/-! The legal opcode words and the canonical ones (30_encoding.md R53), and the digits that make a word illegal
(R48 to R50). -/

namespace Sys2Proof

/-- The row of an operation exists where the operation is in the opcode map and the digit of its write-target is not 1
(30_encoding.md R50, R52). -/
theorem exists_decodeOperation_ok_iff (n q : Nat) : (∃ op, decodeOperation n q = .ok op) ↔
    n ∈ operationCodes ∧ (n ∈ [1, 2, 7, 8] → digit q 2 ≠ 1) ∧ (n = 3 → digit q 0 ≠ 1) := by
  simp only [decodeOperation_ok_iff, exists_or, exists_and_left, exists_eq, and_true, operationCodes, List.mem_cons,
    List.not_mem_nil, or_false]
  omega

/-- A digit 1 at the place of a write-target is rejected (30_encoding.md R50). -/
theorem decodeOperation_immediateTarget {n q : Nat} (h : n ∈ [1, 2, 7, 8] ∧ digit q 2 = 1 ∨ n = 3 ∧ digit q 0 = 1) :
    decodeOperation n q = .error .invalidParameterMode := by
  simp only [List.mem_cons, List.not_mem_nil, or_false] at h
  rcases h with ⟨rfl | rfl | rfl | rfl, hd⟩ | ⟨rfl, hd⟩ <;> simp [decodeOperation, hd]

theorem decodeOpcode_immediateTarget {w : Int} (hw : 0 ≤ w) (h : w.toNat % 100 ∈ [1, 2, 7, 8] ∧
    digit (w.toNat / 100) 2 = 1 ∨ w.toNat % 100 = 3 ∧ digit (w.toNat / 100) 0 = 1) :
    decodeOpcode w = .error .invalidParameterMode := by
  by_cases hq : ∀ k, digit (w.toNat / 100) k ≤ 1
  · rw [decodeOpcode_legal hw hq, decodeOperation_immediateTarget h]
  · simp only [not_forall, Nat.not_le] at hq
    exact decodeOpcode_badMode hw hq

theorem decode_error_of_opcode {w : Int} {ws : List Int} {r : Reject} (h : decodeOpcode w = .error r) :
    decode (w :: ws) = .error r := by
  rw [decode, h]

/-- An excess digit of 2 or more fails, like any other digit (30_encoding.md R48, R49). -/
theorem decodeOpcode_illegal_excess {e : Nat} (i : Instr) (h : ∃ k, 2 ≤ digit e k) :
    decodeOpcode (i.opcodeWordWith e) = .error .invalidParameterMode := by
  obtain ⟨k, hk⟩ := h
  refine decodeOpcode_badMode (opcodeWordWith_nonneg e i) ⟨i.rawWords.length + k, ?_⟩
  rwa [← digit_div_pow, (opcodeWordWith_mod_div e i).2]

/-- Settles O8: legal excess digits by `decode_eq_ok_instr_iff`, an illegal one by `decodeOpcode_illegal_excess`, and the
write-target by `decodeOpcode_immediateTarget`. -/
theorem excessModeDigitsSelectNothing : Obligations.ExcessModeDigitsSelectNothing :=
  ⟨fun i e rest he => (decode_eq_ok_instr_iff _ rest i).2 ⟨e, he, rfl⟩,
    fun i _ _ h => decode_error_of_opcode (decodeOpcode_illegal_excess i h),
    by decide, by decide, by decide, fun _ => decodeOpcode_immediateTarget⟩

/-- A word decodes where it is not negative, its digits are legal and its operation has a row (30_encoding.md R57). -/
theorem decodeOpcode_ok_iff (w : Int) (op : Op) : decodeOpcode w = .ok op ↔
    0 ≤ w ∧ (∀ k, digit (w.toNat / 100) k ≤ 1) ∧ decodeOperation (w.toNat % 100) (w.toNat / 100) = .ok op :=
  ⟨decodeOpcode_ok, fun ⟨hw, hq, h⟩ => (decodeOpcode_legal hw hq).trans h⟩

/-- The canonical word of an instruction is its row of the table of 30_encoding.md R53. -/
theorem mem_canonicalWords_iff (w : Int) (i : Instr) : (w, i.op) ∈ canonicalWords ↔ w = i.opcodeWordWith 0 := by
  cases i with
  | add a b dst | mul a b dst | lt a b dst | eq a b dst | jt a b | jf a b =>
    cases a <;> cases b <;>
      simp [canonicalWords, Instr.op, Src.mode, Instr.opcodeWordWith, Instr.operation, Instr.modeDigits, Src.modeDigit]
  | out a =>
    cases a <;>
      simp [canonicalWords, Instr.op, Src.mode, Instr.opcodeWordWith, Instr.operation, Instr.modeDigits, Src.modeDigit]
  | inp dst | hlt => simp [canonicalWords, Instr.op, Instr.opcodeWordWith, Instr.operation, Instr.modeDigits]

/-- An opcode word has no excess digits exactly where their number is 0. -/
theorem ndigits_opcodeWordWith_le_iff (e : Nat) (i : Instr) :
    ndigits ((i.opcodeWordWith e).toNat / 100) ≤ i.rawWords.length ↔ e = 0 := by
  rw [ndigits_le_iff, ← Nat.div_eq_zero_iff_lt (by positivity), (opcodeWordWith_mod_div e i).2]

/-- Settles O6: the first part puts the row's condition to the digits of the word; in the second the word is an opcode
word of an instruction of that row, whose excess digits are none. -/
theorem legalOpcodeWordsAreExactlyThese : Obligations.LegalOpcodeWordsAreExactlyThese := by
  refine ⟨fun w => ?_, fun w op => ?_⟩
  · simp only [decodeOpcode_ok_iff, exists_and_left, exists_decodeOperation_ok_iff, Nat.le_one_iff_eq_zero_or_eq_one]
    refine and_congr_right fun _ => and_congr_right fun hq => and_congr_right fun _ => ?_
    have hne : ∀ k, digit (w.toNat / 100) k ≠ 1 ↔ digit (w.toNat / 100) k = 0 := fun k => by have := hq k; omega
    rw [hne, hne]
  · obtain ⟨i, rfl⟩ := exists_op_eq op
    rw [mem_canonicalWords_iff, decodeOpcode_eq_ok_op_iff, i.arity_op]
    constructor
    · rintro rfl
      exact ⟨⟨0, by simp, rfl⟩, (ndigits_opcodeWordWith_le_iff 0 i).2 rfl⟩
    · rintro ⟨⟨e, -, rfl⟩, he⟩
      rw [(ndigits_opcodeWordWith_le_iff e i).1 he]

end Sys2Proof

/-! A word as an opcode word fails by the decoder's own tests (30_encoding.md R48, R54, R55); as a parameter or as data
any word is legal. -/

namespace Sys2Proof.Machine

/-- An opcode word that is rejected fails the step (40_engine_step.md R66), which counts. -/
theorem step_of_rejected_word {s : State} {w : Int} {r : Reject} (hs : s.Stepping) (hl : ¬ s.LimitReached)
    (hw : s.memRead s.ip = some w) (h : decodeOpcode w = .error r) :
    step s = .next (s.countStep.fail (rejectReason r)) :=
  (step_eq_runWord hs hl hw).trans (runWord_error _ h)

/-- After a legal opcode word any words of the right number are its parameters (30_encoding.md R43, R55). -/
theorem decode_arity_words {w : Int} {op : Op} {ps : List Int} (rest : List Int) (hw : decodeOpcode w = .ok op)
    (hps : ps.length = op.arity) :
    ∃ i, op.build (ps ++ rest) = some (i, rest) ∧ decode (w :: (ps ++ rest)) = .ok (i, rest) ∧ i.rawWords = ps := by
  obtain ⟨i, hb, hr⟩ := build_append rest hps
  exact ⟨i, hb, (decode_eq_ok_iff _ _).2 ⟨w, _, op, rfl, hw, hb⟩, hr⟩

/-- Any word read as data is the operand, immediate or in a valid cell (40_engine_step.md R69). -/
theorem sourceValue_any_word (s : State) (v : Int) : sourceValue s (.immediate v) = some v ∧
    ∀ a : Int, s.Valid a → s.mem.read a.toNat = v → sourceValue s (.position a) = some v :=
  ⟨rfl, fun a ha hv => (State.memRead_eq_some_iff s a v).2 ⟨ha, hv⟩⟩

/-- Settles O3: the sign is the decoder's first test, and no other use of a word looks at it. -/
theorem negativeOpcodeWordsAreUnknown : Obligations.NegativeOpcodeWordsAreUnknown :=
  ⟨fun _ _ hs hl hw hneg => step_of_rejected_word hs hl hw (decodeOpcode_neg hneg),
    fun _ _ _ rest hw hps => decode_arity_words rest hw hps, sourceValue_any_word⟩

/-- Settles O4: a digit that is neither 0 nor 1 is 2 or more, and the decoder rejects it before it looks at the
operation. -/
theorem everyModeDigitIsChecked : Obligations.EveryModeDigitIsChecked :=
  ⟨fun _ _ i hs hl hw hpos _ h0 h1 =>
    step_of_rejected_word hs hl hw (decodeOpcode_badMode hpos ⟨i, by omega⟩), by decide, by decide, by decide, by decide⟩

/-- The operations outside the opcode map (30_encoding.md R54) have no row. -/
theorem decodeOperation_not_mem {n : Nat} (q : Nat) (h : n ∉ operationCodes) :
    decodeOperation n q = .error .unknownOpcode :=
  decodeOperation_unknown q (by
    simp only [operationCodes, List.mem_cons, List.not_mem_nil, or_false] at h
    omega)

/-- Settles O5: past the earlier tests the decoder looks the operation up and finds no row. -/
theorem operationsOutsideTheMapFail : Obligations.OperationsOutsideTheMapFail :=
  ⟨fun _ _ hs hl hw hpos hq hop => step_of_rejected_word hs hl hw
      ((decodeOpcode_legal hpos hq).trans (decodeOperation_not_mem _ hop)),
    by decide, fun _ _ _ rest hw hps => decode_arity_words rest hw hps, sourceValue_any_word⟩

end Sys2Proof.Machine

/-! When a step is taken at all (40_engine_step.md R60, R62; 70_reset_and_hazards.md R100), and what it runs (R63). -/

namespace Sys2Proof.Machine

section

variable {s : State}

theorem step_held (hrst : s.rst ≠ .released) : step s = .fault .heldInReset := by
  unfold step engineStep
  cases h : s.rst with
  | released => exact absurd h hrst
  | asserted programLoaded inputLoaded => rfl

theorem step_halted (hrst : s.rst = .released) (hrun : s.run = .halted) : step s = .fault .halted := by
  simp [step, engineStep, hrst, hrun]

theorem step_failed (hrst : s.rst = .released) (hrun : s.run = .failed) :
    step s = .fault (.failed s.failReason) := by
  simp [step, engineStep, hrst, hrun]

theorem step_faults_of_not_stepping (hs : ¬ s.Stepping) : ∃ f, step s = .fault f := by
  by_cases hrst : s.rst = .released
  · cases hrun : s.run with
    | running => exact absurd ⟨hrst, hrun⟩ hs
    | halted => exact ⟨_, step_halted hrst hrun⟩
    | failed => exact ⟨_, step_failed hrst hrun⟩
  · exact ⟨_, step_held hrst⟩

/-- A step at the limit is refused before anything is fetched or counted (40_engine_step.md R64). -/
theorem step_of_limitReached (hs : s.Stepping) (hl : s.LimitReached) : step s = .next (s.fail .stepLimitExceeded) :=
  (step_stepping hs).trans (runStep_limit hl)

end

/-- Settles O13: the three states in which the engine takes no step. -/
theorem noStepAfterTheEndOrInReset : Obligations.NoStepAfterTheEndOrInReset := fun _ =>
  ⟨step_halted, step_failed, step_held⟩

/-- Settles O12: the engine answers a next state at each of its stages, and no stage is entered unless the core runs. -/
theorem stepIsTotalExactlyWhileRunning : Obligations.StepIsTotalExactlyWhileRunning := fun _ =>
  ⟨fun hs => (step_cases hs).imp fun _ h => h.1, step_faults_of_not_stepping⟩

/-- Settles O10: the engine fetches and decodes just the words of the instruction. -/
theorem stepRunsTheDecodedInstruction : Obligations.StepRunsTheDecodedInstruction := fun _ _ _ _ _ =>
  step_eq_exec_of_decode

end Sys2Proof.Machine

/-! The step limit (40_engine_step.md R64). Only stage 0 looks at it, so the stages behind it commute with
`State.withLimit`; a run below the limit is therefore the unlimited run, and `STEPS` says where it is cut. -/

namespace Sys2Proof.Machine

/-! ## What does not depend on the limit -/

@[simp] theorem State.withLimit_nextInput (s : State) (l : Option Nat) : (s.withLimit l).nextInput = s.nextInput := rfl

@[simp] theorem State.withLimit_fetchParams (s : State) (l : Option Nat) (n : Nat) :
    (s.withLimit l).fetchParams n = s.fetchParams n :=
  State.readWords_congr (s := s.withLimit l) (s' := s) rfl (fun _ _ => rfl) (s.ip + 1) n

@[simp] theorem withLimit_sourceValue (s : State) (l : Option Nat) (a : Src) :
    sourceValue (s.withLimit l) a = sourceValue s a :=
  sourceValue_congr (s := s.withLimit l) (s' := s) rfl (fun _ _ => rfl) a

/-! ## The stages behind the limit commute with it -/

/-- `r'` is the outcome `r` on a core with the step limit `l`. -/
def SameUnderLimit (l : Option Nat) (r r' : Result) : Prop := r' = mapNext (fun t => t.withLimit l) r

section

variable {l : Option Nat} {s : State}

theorem sameUnderLimit_next (l : Option Nat) (t : State) : SameUnderLimit l (.next t) (.next (t.withLimit l)) := rfl

theorem sameUnderLimit_fault (l : Option Nat) (f : Fault) : SameUnderLimit l (.fault f) (.fault f) := rfl

theorem sameUnderLimit_raise (l : Option Nat) (reason : FailReason) (s : State) :
    SameUnderLimit l (raise reason s) (raise reason (s.withLimit l)) := sameUnderLimit_next l (s.fail reason)

theorem sameUnderLimit_withSource (a : Src) {k k' : Int → Result} (hk : ∀ v, SameUnderLimit l (k v) (k' v)) :
    SameUnderLimit l (withSource a s k) (withSource a (s.withLimit l) k') := by
  cases ha : sourceValue s a with
  | none =>
    rw [withSource_none k ha, withSource_none k' ((withLimit_sourceValue s l a).trans ha)]
    exact sameUnderLimit_raise l .undefinedAddress s
  | some v =>
    rw [withSource_some k ha, withSource_some k' ((withLimit_sourceValue s l a).trans ha)]
    exact hk v

theorem sameUnderLimit_withTarget (dst : Int) {r r' : Result} (h : SameUnderLimit l r r') :
    SameUnderLimit l (withTarget dst s r) (withTarget dst (s.withLimit l) r') := by
  by_cases hd : s.Valid dst
  · rwa [withTarget_valid r hd, withTarget_valid (s := s.withLimit l) r' hd]
  · rw [withTarget_invalid r hd, withTarget_invalid (s := s.withLimit l) r' hd]
    exact sameUnderLimit_raise l .undefinedAddress s

theorem sameUnderLimit_commitResult (r : Option Int) (dst : Int) (s : State) :
    SameUnderLimit l (commitResult r dst s) (commitResult r dst (s.withLimit l)) := by
  cases r with
  | none => exact sameUnderLimit_raise l .arithmeticOverflow s
  | some v => exact sameUnderLimit_next l ((s.store dst v).advance 3)

theorem sameUnderLimit_execBinary (f : Int → Int → Option Int) (a b : Src) (dst : Int) (s : State) :
    SameUnderLimit l (execBinary f a b dst s) (execBinary f a b dst (s.withLimit l)) :=
  sameUnderLimit_withSource a fun x => sameUnderLimit_withSource b fun y =>
    sameUnderLimit_withTarget dst (sameUnderLimit_commitResult (f x y) dst s)

theorem sameUnderLimit_execJump (test : Int → Bool) (cond target : Src) (s : State) :
    SameUnderLimit l (execJump test cond target s) (execJump test cond target (s.withLimit l)) :=
  sameUnderLimit_withSource cond fun c => sameUnderLimit_withSource target fun t => by
    cases test c
    · exact sameUnderLimit_next l (s.advance 2)
    · exact sameUnderLimit_next l (s.setIp t)

theorem sameUnderLimit_execIn (dst : Int) (s : State) :
    SameUnderLimit l (execIn dst s) (execIn dst (s.withLimit l)) := by
  refine sameUnderLimit_withTarget dst ?_
  rw [State.withLimit_nextInput]
  cases s.nextInput with
  | none => exact sameUnderLimit_raise l .inputExhausted s
  | some v => exact sameUnderLimit_next l (((s.store dst v).consume).advance 1)

theorem sameUnderLimit_execOut (a : Src) (s : State) : SameUnderLimit l (execOut a s) (execOut a (s.withLimit l)) :=
  sameUnderLimit_withSource a fun v => sameUnderLimit_next l ((s.emit v).advance 1)

/-- Stages 5 to 7 of any instruction. -/
theorem sameUnderLimit_exec (i : Instr) (s : State) : SameUnderLimit l (exec i s) (exec i (s.withLimit l)) := by
  cases i with
  | add a b dst => exact sameUnderLimit_execBinary (aluAdd s.params.w) a b dst s
  | mul a b dst => exact sameUnderLimit_execBinary (aluMul s.params.w) a b dst s
  | inp dst => exact sameUnderLimit_execIn dst s
  | out a => exact sameUnderLimit_execOut a s
  | jt cond target => exact sameUnderLimit_execJump jumpsIfTrue cond target s
  | jf cond target => exact sameUnderLimit_execJump jumpsIfFalse cond target s
  | lt a b dst => exact sameUnderLimit_execBinary _ a b dst s
  | eq a b dst => exact sameUnderLimit_execBinary _ a b dst s
  | hlt => exact sameUnderLimit_next l s.halt

theorem sameUnderLimit_runOp (op : Op) (s : State) : SameUnderLimit l (runOp op s) (runOp op (s.withLimit l)) := by
  unfold runOp
  rw [State.withLimit_fetchParams]
  cases (s.fetchParams op.arity).bind op.build with
  | none => exact sameUnderLimit_raise l .undefinedAddress s
  | some ib => exact sameUnderLimit_exec ib.1 s

theorem sameUnderLimit_runWord (v : Int) (s : State) :
    SameUnderLimit l (runWord v s) (runWord v (s.withLimit l)) := by
  cases hd : decodeOpcode v with
  | error e => rw [runWord_error s hd, runWord_error _ hd]; exact sameUnderLimit_raise l (rejectReason e) s
  | ok op => rw [runWord_ok s hd, runWord_ok _ hd]; exact sameUnderLimit_runOp op s

theorem sameUnderLimit_runFetch (s : State) : SameUnderLimit l (runFetch s) (runFetch (s.withLimit l)) := by
  cases hv : s.memRead s.ip with
  | none =>
    rw [runFetch_invalid hv, runFetch_invalid (s := s.withLimit l) hv]
    exact sameUnderLimit_raise l .undefinedAddress s
  | some v =>
    rw [runFetch_valid hv, runFetch_valid (s := s.withLimit l) hv]
    exact sameUnderLimit_runWord v s

/-- A step that neither limit refuses is the same step under both, and so is the fault where no step is taken. -/
theorem sameUnderLimit_step (hl : ¬ s.LimitReached) (hl' : ¬ (s.withLimit l).LimitReached) :
    SameUnderLimit l (step s) (step (s.withLimit l)) := by
  by_cases hrst : s.rst = .released
  · cases hrun : s.run with
    | running =>
      rw [step_stepping ⟨hrst, hrun⟩, step_stepping (s := s.withLimit l) ⟨hrst, hrun⟩, runStep_noLimit hl,
        runStep_noLimit hl']
      exact sameUnderLimit_runFetch s.countStep
    | halted =>
      rw [step_halted hrst hrun, step_halted (s := s.withLimit l) hrst hrun]
      exact sameUnderLimit_fault l .halted
    | failed =>
      rw [step_failed hrst hrun, step_failed (s := s.withLimit l) hrst hrun]
      exact sameUnderLimit_fault l (.failed s.failReason)
  · rw [step_held hrst, step_held (s := s.withLimit l) hrst]
    exact sameUnderLimit_fault l .heldInReset

theorem sameUnderLimit_andThen {r r' : Result} {k k' : State → Result} (hr : SameUnderLimit l r r')
    (hk : ∀ u, r = .next u → SameUnderLimit l (k u) (k' (u.withLimit l))) :
    SameUnderLimit l (andThen r k) (andThen r' k') := by
  obtain rfl : r' = mapNext _ r := hr
  cases r with
  | next u => exact hk u rfl
  | fault f => rfl
  | refused f => rfl

/-! ## Runs -/

theorem State.not_limitReached_of_none (h : s.params.stepLimit = none) : ¬ s.LimitReached := by
  simp [State.LimitReached, h]

theorem Effect.rst_eq {i : Instr} {t : State} (h : Effect i s t) : t.rst = s.rst := by
  rcases h with ⟨_, -, rfl⟩ | ⟨_, _, -, -, -, -, rfl⟩ | ⟨_, _, -, -, -, rfl⟩ | ⟨_, _, -, -, rfl⟩ |
    ⟨_, _, _, -, -, rfl | rfl⟩ | ⟨-, rfl⟩ <;> rfl

/-- No step releases or asserts `rst`: it is a port (10_state.md R24). -/
theorem step_rst_eq {t : State} (h : step s = .next t) : t.rst = s.rst := by
  rcases step_fails_or_effect h with ⟨_, rfl | rfl⟩ | ⟨_, he⟩
  · rfl
  · rfl
  · exact he.rst_eq

/-- A step without a limit leaves a state without a limit, with `rst` as it was and one more step counted. -/
theorem step_unlimited {t : State} (hl : s.params.stepLimit = none) (h : step s = .next t) :
    t.params.stepLimit = none ∧ t.rst = s.rst ∧ t.steps = s.steps + 1 := by
  refine ⟨(step_params_reason h).1 ▸ hl, step_rst_eq h, ?_⟩
  exact (stepsCountsTheStepsBegun s t h).2 (State.not_limitReached_of_none hl)

/-- `k` steps without a limit are counted as `k` steps. -/
theorem runSteps_unlimited {k : Nat} {t : State} (hl : s.params.stepLimit = none) (h : runSteps k s = .next t) :
    t.rst = s.rst ∧ t.steps = s.steps + k := by
  induction k generalizing s with
  | zero => cases h; exact ⟨rfl, rfl⟩
  | succ k ih =>
    obtain ⟨u, hu, hk⟩ := (runSteps_succ_eq_next_iff k s t).1 h
    obtain ⟨hlu, hrst, hsteps⟩ := step_unlimited hl hu
    obtain ⟨hrst', hsteps'⟩ := ih hlu hk
    exact ⟨hrst'.trans hrst, by omega⟩

/-- As long as the count stays within the limit, the limited run is the unlimited one: at each of its steps the count is
still below the limit. -/
theorem sameUnderLimit_runSteps {n k : Nat} (hl : s.params.stepLimit = none) (hk : s.steps + k ≤ n) :
    SameUnderLimit (some n) (runSteps k s) (runSteps k (s.withLimit (some n))) := by
  induction k generalizing s with
  | zero => exact sameUnderLimit_next (some n) s
  | succ k ih =>
    have hne : ¬ (s.withLimit (some n)).LimitReached := fun h => by
      have hn : n = s.steps := Option.some.inj h
      omega
    refine sameUnderLimit_andThen (sameUnderLimit_step (State.not_limitReached_of_none hl) hne) fun u hu => ?_
    obtain ⟨hlu, -, hsteps⟩ := step_unlimited hl hu
    exact ih hlu (by omega)

end

/-- Settles O18: the limited run simulates the unlimited one up to the limit, by induction on the number of steps; the
count then equals the limit, which refuses the next step. -/
theorem stepLimitCutsTheRunExactly : Obligations.StepLimitCutsTheRunExactly := by
  refine ⟨fun u => step_of_limitReached, fun u t hl h => (stepsCountsTheStepsBegun u t h).2 hl, ?_⟩
  intro s n hl h0 hs
  have hsame : ∀ k, k ≤ n → SameUnderLimit (some n) (runSteps k s) (runSteps k (s.withLimit (some n))) :=
    fun k hk => sameUnderLimit_runSteps hl (by omega)
  refine ⟨hsame, fun t ht hrun => ?_⟩
  obtain ⟨hrst, hsteps⟩ := runSteps_unlimited hl ht
  have hreach : (t.withLimit (some n)).LimitReached := congrArg some (by simp [hsteps, h0])
  have hrefused := step_of_limitReached (s := t.withLimit (some n)) ⟨hrst.trans hs.1, hrun⟩ hreach
  have hcut : runSteps n (s.withLimit (some n)) = .next (t.withLimit (some n)) := by
    rw [hsame n (Nat.le_refl n), ht]
    rfl
  rw [runSteps_add, hcut]
  exact (runSteps_succ_eq_next_iff 0 _ _).2 ⟨_, hrefused, rfl⟩

end Sys2Proof.Machine

/-! Where `IP` goes (40_engine_step.md R72), and a jump whose target cannot be read (R69). -/

namespace Sys2Proof.Machine

/-- An instruction after which the run goes on has moved `IP` past its words, or has jumped to its target. -/
theorem Effect.ip_of_running {i : Instr} {s t : State} (h : Effect i s t) (hrun : t.run = .running) :
    t.ip = s.ip + 1 + i.rawWords.length ∨ ∃ c a, (i = .jt c a ∨ i = .jf c a) ∧ sourceValue s a = some t.ip := by
  rcases h with ⟨_, -, rfl⟩ | ⟨_, _, -, hlen, -, -, rfl⟩ | ⟨_, _, rfl, -, -, rfl⟩ | ⟨_, _, rfl, -, rfl⟩ |
    ⟨c, a, _, hi, ha, rfl | rfl⟩ | ⟨-, rfl⟩
  · cases hrun
  · exact .inl (by rw [hlen]; rfl)
  · exact .inl rfl
  · exact .inl rfl
  · exact .inr ⟨c, a, hi, ha⟩
  · exact .inl (by rcases hi with rfl | rfl <;> rfl)
  · cases hrun

/-- Settles O42: of the two places `IP` can go, the second is open to the jumps only, and they have two parameters. -/
theorem onlyJumpsLeaveTheDefaultAdvance : Obligations.OnlyJumpsLeaveTheDefaultAdvance := by
  intro i s t h hrun
  rcases (exec_effect h).ip_of_running hrun with hip | ⟨c, a, hi, ha⟩
  · refine ⟨fun _ => hip, fun c a hi => .inl ?_⟩
    have hlen : i.rawWords.length = 2 := by rcases hi with rfl | rfl <;> rfl
    omega
  · refine ⟨fun hn => absurd hi (not_or.2 (hn c a)), fun c' a' hi' => .inr ?_⟩
    obtain rfl : a = a' := by rcases hi with rfl | rfl <;> rcases hi' with h' | h' <;> cases h' <;> rfl
    exact ha

/-- Settles O40: the target is among the sources of both jumps, and every source is resolved. -/
theorem jumpTargetsAreAlwaysResolved : Obligations.JumpTargetsAreAlwaysResolved := fun _ _ _ ha =>
  ⟨exec_of_invalid_operand ha (.inl (by simp [Instr.sources])),
    exec_of_invalid_operand ha (.inl (by simp [Instr.sources]))⟩

end Sys2Proof.Machine

/-! ADD and MUL (41_arithmetic.md): the instructions of format F3 past their operands, and the integer laws of R75 and
R76. -/

namespace Sys2Proof

/-- The two failure conditions of 41_arithmetic.md R76 are those of a result that does not fit (00_scope.md R9). -/
theorem outside_iff_not_fits (w : Nat) (r : Int) : r > maxW w ∨ r < minW w ↔ ¬ fits w r := by
  unfold fits
  omega

end Sys2Proof

namespace Sys2Proof.Machine

theorem narrow_of_fits {w : Nat} {r : Int} (h : fits w r) : narrow w r = some r :=
  (narrow_eq_some_iff w r r).2 ⟨h, rfl⟩

theorem narrow_of_not_fits {w : Nat} {r : Int} (h : ¬ fits w r) : narrow w r = none := (narrow_eq_none_iff w r).2 h

/-- `narrow` in the terms of 41_arithmetic.md R76: the exact result, and no result above `MAXW` or below `MINW`. -/
theorem narrow_exact_or_none (w : Nat) (r : Int) :
    (¬ (r > maxW w ∨ r < minW w) → narrow w r = some r) ∧ ((r > maxW w ∨ r < minW w) → narrow w r = none) := by
  rw [outside_iff_not_fits, not_not]
  exact ⟨narrow_of_fits, narrow_of_not_fits⟩

/-- The constraint on `MEM_DEPTH` leaves room for the default advance past the last cell (00_scope.md R6), whatever the
registers and the memory hold. -/
theorem State.fits_advance_of_valid {s : State} {n : Nat} (hp : s.params.wf) (hlen : s.len ≤ s.params.memDepth)
    (hip : s.Valid s.ip) (hn : n ≤ 3) : fits s.params.w (s.ip + 1 + n) := by
  obtain ⟨-, -, hdepth, -⟩ := hp
  obtain ⟨hnonneg, hlt⟩ := hip
  unfold fits minW maxW
  omega

/-- Settles O38: the adder and the multiplier are `narrow` of the exact result. -/
theorem summaryOfTheIntegerLaws : Obligations.SummaryOfTheIntegerLaws := by
  refine ⟨fun w x y => ?_, fun x y => ⟨lessWord_eq x y, equalWord_eq x y⟩,
    fun x => ⟨jumpsIfTrue_iff x, jumpsIfFalse_iff x⟩,
    fun s n hp hlen hip hn => ⟨s.advance_ip n, State.fits_advance_of_valid hp hlen hip hn⟩⟩
  obtain ⟨hadd, hadd'⟩ := narrow_exact_or_none w (x + y)
  obtain ⟨hmul, hmul'⟩ := narrow_exact_or_none w (x * y)
  exact ⟨hadd, hadd', hmul, hmul'⟩

section

variable {f : Int → Int → Option Int} {a b : Src} {dst x y : Int} {s : State} (ha : sourceValue s a = some x)
  (hb : sourceValue s b = some y) (hd : s.Valid dst)

include ha hb hd

/-- With its operands at hand an instruction of format F3 is its commit (40_engine_step.md R69 to R72). -/
theorem execBinary_eq_commitResult : execBinary f a b dst s = commitResult (f x y) dst s := by
  rw [execBinary, withSource_some _ ha, withSource_some _ hb, withTarget_valid _ hd]

/-- A result is stored in the cell `dst`, `IP` moves past the four words, and nothing else changes. -/
theorem execBinary_completes {v : Int} (hm : s.mem.wf = true) (hf : f x y = some v) :
    ∃ t, execBinary f a b dst s = .next t ∧ t = { s with mem := t.mem, ip := s.ip + 4 } ∧
      t.mem.read dst.toNat = v ∧ ∀ c, c ≠ dst.toNat → t.mem.read c = s.mem.read c := by
  have hip : s.ip + 4 = s.ip + 1 + (3 : Nat) := by omega
  refine ⟨(s.store dst v).advance 3, ?_, ?_, Memory.read_write_same _ v hm, fun _ hc => Memory.read_write_other v hm hc⟩
  · rw [execBinary_eq_commitResult ha hb hd, hf]
    rfl
  · rw [hip]
    rfl

/-- No result is a failure with nothing stored (41_arithmetic.md R75). -/
theorem execBinary_overflows (hf : f x y = none) : execBinary f a b dst s = .next (s.fail .arithmeticOverflow) := by
  rw [execBinary_eq_commitResult ha hb hd, hf]
  rfl

/-- An instruction of format F3 whose exact result is `r` stores `r` or overflows (41_arithmetic.md R75). -/
theorem execBinary_exact_or_overflows {r : Int} (hm : s.mem.wf = true) (hf : f x y = narrow s.params.w r) :
    (fits s.params.w r → ∃ t, execBinary f a b dst s = .next t ∧ t.run = s.run ∧ t.mem.read dst.toNat = r) ∧
    (¬ fits s.params.w r → execBinary f a b dst s = .next (s.fail .arithmeticOverflow)) := by
  constructor
  · intro hfit
    obtain ⟨t, ht, hframe, hread, -⟩ := execBinary_completes ha hb hd hm (hf.trans (narrow_of_fits hfit))
    exact ⟨t, ht, by rw [hframe], hread⟩
  · intro hfit
    exact execBinary_overflows ha hb hd (hf.trans (narrow_of_not_fits hfit))

end

/-- Settles O28: the sum is the result of ADD. -/
theorem addStoresTheSum : Obligations.AddStoresTheSum := fun _ _ _ _ _ _ hm ha hb hd hfit =>
  execBinary_completes ha hb hd hm (narrow_of_fits hfit)

/-- Settles O29: the product is the result of MUL. -/
theorem mulStoresTheProduct : Obligations.MulStoresTheProduct := fun _ _ _ _ _ _ hm ha hb hd hfit =>
  execBinary_completes ha hb hd hm (narrow_of_fits hfit)

/-- Settles O37: both instructions narrow their exact result. -/
theorem resultsAreExactOrOverflow : Obligations.ResultsAreExactOrOverflow := by
  rintro s a b dst x y r i hm ha hb hd (⟨rfl, rfl⟩ | ⟨rfl, rfl⟩)
  · exact execBinary_exact_or_overflows (f := aluAdd s.params.w) ha hb hd hm rfl
  · exact execBinary_exact_or_overflows (f := aluMul s.params.w) ha hb hd hm rfl

end Sys2Proof.Machine

/-! IN and OUT past their operand (42_io.md): both have one parameter, so both leave `IP` two cells on. -/

namespace Sys2Proof.Machine

/-- The default advance of an opcode word with one parameter (40_engine_step.md R72). -/
theorem State.advance_one (s : State) : s.advance 1 = { s with ip := s.ip + 2 } := by
  have hip : s.ip + 2 = s.ip + 1 + (1 : Nat) := by omega
  rw [hip]
  rfl

/-- With a valid write-target and input left, IN stores the next input word and consumes it (42_io.md R77). -/
theorem execIn_completes {dst v : Int} {s : State} (hd : s.Valid dst) (hn : s.nextInput = some v) :
    execIn dst s = .next { s with mem := s.mem.write dst.toNat v, inHead := s.inHead + 1, ip := s.ip + 2 } := by
  rw [execIn, withTarget_valid _ hd, hn]
  exact congrArg Host.Outcome.next (State.advance_one _)

/-- With a readable source, OUT appends its word (42_io.md R78). -/
theorem execOut_completes {a : Src} {x : Int} {s : State} (ha : sourceValue s a = some x) :
    execOut a s = .next { s with out := s.out ++ [x], ip := s.ip + 2 } := by
  rw [execOut, withSource_some _ ha, State.advance_one]
  rfl

/-- Settles O32: below `IN_LEN` the next input word is the entry of the input queue at `IN_HEAD`, and the store is read
back at `dst` only. -/
theorem inStoresTheNextInput : Obligations.InStoresTheNextInput := by
  intro s dst h hm hd
  have hn : s.nextInput = some (s.inq[s.inHead]'h) := List.getElem?_eq_getElem h
  exact ⟨_, execIn_completes hd hn, rfl, Memory.read_write_same _ _ hm, fun _ hc => Memory.read_write_other _ hm hc⟩

/-- Settles O33: the operand is the word the source has. -/
theorem outAppendsItsOperand : Obligations.OutAppendsItsOperand := fun _ _ _ ha => execOut_completes ha

end Sys2Proof.Machine

/-! JT and JF past their operands (43_jumps.md): the two outcomes of the test, and what a taken jump leaves to the next
fetch. -/

namespace Sys2Proof.Machine

/-- The default advance of an opcode word with two parameters (40_engine_step.md R72). -/
theorem State.advance_two (s : State) : s.advance 2 = { s with ip := s.ip + 3 } := by
  have hip : s.ip + 3 = s.ip + 1 + (2 : Nat) := by omega
  rw [hip]
  rfl

section

variable {test : Int → Bool} {c a : Src} {x y : Int} {s : State} (hc : sourceValue s c = some x)
  (ha : sourceValue s a = some y)

include hc ha

/-- With its operands at hand a jump is the choice its test makes (40_engine_step.md R69, R72). -/
theorem execJump_eq_ite : execJump test c a s = .next (if test x then s.setIp y else s.advance 2) := by
  rw [execJump, withSource_some _ hc, withSource_some _ ha]

theorem execJump_taken (ht : test x) : execJump test c a s = .next (s.setIp y) := by
  rw [execJump_eq_ite hc ha, if_pos ht]

theorem execJump_not_taken (ht : ¬ test x) : execJump test c a s = .next { s with ip := s.ip + 3 } := by
  rw [execJump_eq_ite hc ha, if_neg ht, State.advance_two]

end

/-- Settles O34: JT's test holds of any word but 0. -/
theorem jtJumpsOnAnyNonzeroWord : Obligations.JtJumpsOnAnyNonzeroWord := fun _ _ _ x _ hc ha =>
  ⟨fun hx => execJump_taken hc ha ((jumpsIfTrue_iff x).2 hx),
    fun hx => execJump_not_taken hc ha fun ht => (jumpsIfTrue_iff x).1 ht hx⟩

/-- Settles O35: JF's test holds of 0 only. -/
theorem jfJumpsOnZeroOnly : Obligations.JfJumpsOnZeroOnly := fun _ _ _ x _ hc ha =>
  ⟨fun hx => execJump_taken hc ha ((jumpsIfFalse_iff x).2 hx),
    fun hx => execJump_not_taken hc ha (mt (jumpsIfFalse_iff x).1 hx)⟩

/-- A taken jump goes on with the run and leaves `STEPS` and `LEN`, so the next step gets as far as its fetch, and that
fails where the target is not valid (43_jumps.md R81, 40_engine_step.md R65). -/
theorem step_setIp_of_not_valid {s : State} {y : Int} (hs : s.Stepping) (hl : ¬ s.LimitReached) (hy : ¬ s.Valid y) :
    step (s.setIp y) = .next ((s.setIp y).countStep.fail .undefinedAddress) :=
  step_of_invalid_ip (s := s.setIp y) hs hl hy

/-- Settles O41: the jump is taken whatever its target, and the fetch from there fails. -/
theorem badJumpTargetsFailAtTheNextFetch : Obligations.BadJumpTargetsFailAtTheNextFetch := by
  intro s x y c a i hs hc ha hi hy hl
  refine ⟨?_, s.setIp_ip y, step_setIp_of_not_valid hs hl hy, rfl⟩
  rcases hi with ⟨rfl, hx⟩ | ⟨rfl, hx⟩
  · exact execJump_taken hc ha ((jumpsIfTrue_iff x).2 hx)
  · exact execJump_taken hc ha ((jumpsIfFalse_iff x).2 hx)

end Sys2Proof.Machine

/-! LT and EQ past their operands (44_compare.md): format F3 with a result in every case, so neither asks that it fits. -/

namespace Sys2Proof.Machine

/-- Settles O30: the comparison word of LT is its result. -/
theorem ltStoresTheComparison : Obligations.LtStoresTheComparison := fun _ _ _ _ x y hm ha hb hd =>
  execBinary_completes ha hb hd hm (congrArg some (lessWord_eq x y))

/-- Settles O31: the comparison word of EQ is its result. -/
theorem eqStoresTheComparison : Obligations.EqStoresTheComparison := fun _ _ _ _ x y hm ha hb hd =>
  execBinary_completes ha hb hd hm (congrArg some (equalWord_eq x y))

end Sys2Proof.Machine

/-! HLT (45_halt.md): what it does, and that no other instruction and no failure ends a run as halted. -/

namespace Sys2Proof.Machine

/-- Settles O36: HLT is the update of `RUN` alone. -/
theorem hltHaltsInPlace : Obligations.HltHaltsInPlace := fun _ => rfl

/-- The execute stage halts a run that was not halted only by HLT: every other effect keeps `RUN` or fails
(45_halt.md R85). -/
theorem Effect.halt_of_halted {i : Instr} {s t : State} (h : Effect i s t) (hs : s.run ≠ .halted)
    (ht : t.run = .halted) : i = .hlt ∧ t = s.halt := by
  rcases h with ⟨_, -, rfl⟩ | ⟨_, _, -, -, -, -, rfl⟩ | ⟨_, _, -, -, -, rfl⟩ | ⟨_, _, -, -, rfl⟩ |
    ⟨_, _, _, -, -, rfl | rfl⟩ | hlt
  case inr.inr.inr.inr.inr => exact hlt
  case inl => cases ht
  all_goals exact absurd ht hs

/-- A word that decodes to HLT is not negative, its digits are legal and its operation is 99 (30_encoding.md R53). -/
theorem hlt_word_of_decodeOpcode {w : Int} (h : decodeOpcode w = .ok .hlt) :
    0 ≤ w ∧ w.toNat % 100 = 99 ∧ ∀ i, digit (w.toNat / 100) i ≤ 1 := by
  obtain ⟨hw, hq, hrow⟩ := decodeOpcode_ok h
  exact ⟨hw, ((decodeOperation_eq_ok_op_iff hq _ .hlt).1 hrow).1, hq⟩

/-- A step that ends halted is no failure, so it is HLT on the state with the step counted. -/
theorem step_halts {s t : State} (h : step s = .next t) (ht : t.run = .halted) :
    ∃ w, s.memRead s.ip = some w ∧ decodeOpcode w = .ok .hlt ∧ t = s.countStep.halt := by
  have hs : s.Stepping := step_next_stepping h
  obtain ⟨t', ht', hc⟩ := step_cases hs
  obtain rfl : t' = t := by simpa [ht'] using h
  rcases hc with ⟨-, rfl⟩ | ⟨-, -, rfl⟩ | ⟨-, _, _, -, -, rfl⟩ | ⟨-, _, _, -, -, -, rfl⟩ |
    ⟨-, w, op, ps, i, hw, hd, -, hb, -, he⟩
  case inr.inr.inr.inr =>
    have hrun : s.countStep.run ≠ .halted := by simp [hs.2]
    obtain ⟨rfl, rfl⟩ := (exec_effect he).halt_of_halted hrun ht
    obtain rfl : Op.hlt = op := op_of_build hb
    exact ⟨w, hw, hd, rfl⟩
  all_goals cases ht

/-- Settles O16: the step is HLT on the counted state, and the word fetched is one that decodes to HLT. -/
theorem haltedOnlyByAHaltWord : Obligations.HaltedOnlyByAHaltWord := by
  intro s t h ht
  obtain ⟨w, hw, hd, rfl⟩ := step_halts h ht
  obtain ⟨hpos, hop, hdigits⟩ := hlt_word_of_decodeOpcode hd
  exact ⟨w, hw, hpos, hop, hdigits, rfl⟩

end Sys2Proof.Machine

/-! Failures (60_exceptions.md): the cause a step reports (R88), and that a failing step does nothing besides (R90). -/

namespace Sys2Proof

/-- A word of operation 99 with legal digits is HLT, whatever they are (30_encoding.md R49, R52). -/
theorem decodeOpcode_hlt {w : Int} (hw : 0 ≤ w) (hq : ∀ k, digit (w.toNat / 100) k ≤ 1) (hop : w.toNat % 100 = 99) :
    decodeOpcode w = .ok .hlt := by
  rw [decodeOpcode_legal hw hq, hop]
  rfl

end Sys2Proof

namespace Sys2Proof.Machine

@[simp] theorem countStep_sourceValue (s : State) (a : Src) : sourceValue s.countStep a = sourceValue s a :=
  sourceValue_congr (s := s.countStep) (s' := s) rfl (fun _ _ => rfl) a

theorem countStep_operandsValid (s : State) (i : Instr) : s.countStep.OperandsValid i ↔ s.OperandsValid i := by
  simp [State.OperandsValid, State.Valid]

/-! The stages after the decoder, in their order: a missing parameter word, an operand that cannot be reached, and the
two failures of the execute stage itself. -/

section

variable {s : State} {w : Int} {op : Op} (hs : s.Stepping) (hl : ¬ s.LimitReached) (hw : s.memRead s.ip = some w)
  (hd : decodeOpcode w = .ok op)

include hs hl hw hd

theorem step_eq_runOp : step s = runOp op s.countStep := (step_eq_runWord hs hl hw).trans (runWord_ok _ hd)

/-- A parameter word outside the load range fails the step (40_engine_step.md R68). -/
theorem step_of_missing_parameter (hj : ∃ j : Nat, j < op.arity ∧ ¬ s.Valid (s.ip + 1 + j)) :
    step s = .next (s.countStep.fail .undefinedAddress) := by
  have hps : s.countStep.fetchParams op.arity = none := (State.readWords_eq_none_iff s.countStep _ _).2 hj
  rw [step_eq_runOp hs hl hw hd, runOp, hps]
  rfl

/-- With its parameter words at hand the step is the execute stage of the instruction (40_engine_step.md R63). -/
theorem step_eq_exec_of_build {ps rest : List Int} {i : Instr} (hps : s.fetchParams op.arity = some ps)
    (hb : op.build ps = some (i, rest)) : step s = exec i s.countStep :=
  (step_eq_runOp hs hl hw hd).trans (runOp_eq_exec (by rwa [State.countStep_fetchParams]) hb)

end

/-- ADD and MUL past their operands fail where the exact result does not fit (41_arithmetic.md R75). -/
theorem exec_overflows {s : State} {i : Instr} {a b : Src} {dst x y : Int} (hv : s.OperandsValid i)
    (ha : sourceValue s a = some x) (hb : sourceValue s b = some y)
    (hi : i = .add a b dst ∧ ¬ fits s.params.w (x + y) ∨ i = .mul a b dst ∧ ¬ fits s.params.w (x * y)) :
    exec i s = .next (s.fail .arithmeticOverflow) := by
  obtain ⟨-, htarget⟩ := hv
  rcases hi with ⟨rfl, hfit⟩ | ⟨rfl, hfit⟩
  · exact execBinary_overflows ha hb (htarget dst rfl) (narrow_of_not_fits hfit)
  · exact execBinary_overflows ha hb (htarget dst rfl) (narrow_of_not_fits hfit)

/-- IN past the check of its write-target fails where no input word is left (42_io.md R77). -/
theorem execIn_exhausted {s : State} {dst : Int} (hd : s.Valid dst) (hin : s.inHead = s.inLen) :
    execIn dst s = .next (s.fail .inputExhausted) := by
  have hn : s.nextInput = none := List.getElem?_eq_none hin.ge
  rw [execIn, withTarget_valid _ hd, hn]
  rfl

/-- Settles O14: one law per stage, each under the guards of the stages before it; the causes inside decode are the
decoder's own rejections of the opcode word. -/
theorem stepReportsTheFirstCause : Obligations.StepReportsTheFirstCause := by
  refine ⟨fun s hs => ⟨step_of_limitReached hs, step_of_invalid_ip hs, fun w hl hw => ?_⟩,
    by decide, by decide, by decide, by decide, by decide⟩
  have rejected : ∀ r, decodeOpcode w = .error r → step s = .next (s.countStep.fail (rejectReason r)) :=
    fun _ => step_of_rejected_word hs hl hw
  refine ⟨fun hneg => rejected _ (decodeOpcode_neg hneg), fun hpos hq => rejected _ (decodeOpcode_badMode hpos hq),
    fun hpos hq => ⟨fun hop => ?_, fun hop => ?_, fun ht => rejected _ (decodeOpcode_immediateTarget hpos ht)⟩,
    fun op hd => ⟨step_of_missing_parameter hs hl hw hd, fun ps i hps hb => ?_⟩⟩
  · exact rejected _ ((decodeOpcode_legal hpos hq).trans (decodeOperation_not_mem _ hop))
  · exact step_eq_exec_of_build hs hl hw (decodeOpcode_hlt hpos hq hop) (ps := []) rfl rfl
  · rw [step_eq_exec_of_build hs hl hw hd hps hb]
    have hvalid : s.countStep.OperandsValid i ↔ s.OperandsValid i := countStep_operandsValid s i
    refine ⟨fun hv => (exec_undefined_or_valid i s.countStep).resolve_right (mt hvalid.1 hv), ?_, ?_⟩
    · intro a b dst x y hv ha hb hi
      rw [← countStep_sourceValue] at ha hb
      exact exec_overflows (hvalid.2 hv) ha hb hi
    · rintro dst ⟨-, htarget⟩ rfl hin
      exact execIn_exhausted (s := s.countStep) (htarget dst rfl) hin

theorem rejectReason_ne_stepLimitExceeded (e : Reject) : rejectReason e ≠ .stepLimitExceeded := by
  cases e <;> simp [rejectReason]

/-- An effect that ends a run as failed is none of the others, which keep `RUN` or halt (60_exceptions.md R89). -/
theorem Effect.fail_of_failed {i : Instr} {s t : State} (h : Effect i s t) (hs : s.run ≠ .failed)
    (ht : t.run = .failed) : ∃ r, r ≠ .none ∧ r ≠ .stepLimitExceeded ∧ t = s.fail r := by
  rcases h with ⟨r, hr, rfl⟩ | ⟨_, _, -, -, -, -, rfl⟩ | ⟨_, _, -, -, -, rfl⟩ | ⟨_, _, -, -, rfl⟩ |
    ⟨_, _, _, -, -, rfl | rfl⟩ | ⟨-, rfl⟩
  case inl => rcases hr with rfl | rfl | rfl <;> exact ⟨_, by decide, by decide, rfl⟩
  case inr.inr.inr.inr.inr => cases ht
  all_goals exact absurd ht hs

/-- A failing step is the failure of the state as it was, at the limit, or of the state with the step counted, for
another reason. -/
theorem step_fails {s t : State} (h : step s = .next t) (ht : t.run = .failed) :
    (s.LimitReached ∧ t = s.fail .stepLimitExceeded) ∨
    (¬ s.LimitReached ∧ ∃ r, r ≠ .none ∧ r ≠ .stepLimitExceeded ∧ t = s.countStep.fail r) := by
  have hs : s.Stepping := step_next_stepping h
  obtain ⟨t', ht', hc⟩ := step_cases hs
  obtain rfl : t' = t := by simpa [ht'] using h
  rcases hc with limit | ⟨hl, -, rfl⟩ | ⟨hl, _, e, -, -, rfl⟩ | ⟨hl, _, _, -, -, -, rfl⟩ |
    ⟨hl, _, _, _, i, -, -, -, -, -, he⟩
  · exact .inl limit
  · exact .inr ⟨hl, _, by decide, by decide, rfl⟩
  · exact .inr ⟨hl, _, rejectReason_ne_none e, rejectReason_ne_stepLimitExceeded e, rfl⟩
  · exact .inr ⟨hl, _, by decide, by decide, rfl⟩
  · exact .inr ⟨hl, (exec_effect he).fail_of_failed (by simp [hs.2]) ht⟩

/-- Settles O15: both failures of a step set `RUN` and `FAIL_REASON` on a state that differs at most by the count. -/
theorem failuresArePrecise : Obligations.FailuresArePrecise := by
  intro s t h ht
  rcases step_fails h ht with ⟨hl, rfl⟩ | ⟨hl, r, hnone, hlimit, rfl⟩
  · exact ⟨rfl, rfl, rfl, rfl, by simp, rfl, .inl ⟨hl, rfl, rfl⟩⟩
  · exact ⟨rfl, rfl, rfl, rfl, hnone, rfl, .inr ⟨hl, hlimit, rfl⟩⟩

end Sys2Proof.Machine

/-! The decode vectors of 95_test_vectors.md section 2. -/

namespace Sys2Proof

/-- Settles O1: the rows that decode are evaluated, and so are the two without a row in the opcode map; every other
rejection is by the test of 30_encoding.md R57 that it fails. -/
theorem decodeVectorsOfTheSpec : Obligations.DecodeVectorsOfTheSpec :=
  ⟨by decide, by decide, by decide, by decide, by decide, by decide, by decide, by decide, by decide, by decide,
    decodeOpcode_immediateTarget (by decide) (by decide), decodeOpcode_immediateTarget (by decide) (by decide),
    decodeOpcode_badMode (by decide) ⟨1, by decide⟩, by decide, by decide, decodeOpcode_neg (by decide)⟩

end Sys2Proof

/-! The host's transactions (70_reset_and_hazards.md R100 to R106): what they keep, and what is refused. -/

namespace Sys2Proof.Machine

/-- Settles O24: the record is the definition of `State.assertRst`, and a core held in reset takes no step. -/
theorem assertingRstForcesTheRegisters : Obligations.AssertingRstForcesTheRegisters := fun s =>
  ⟨rfl, step_held (s := s.assertRst) (by simp)⟩

/-! ## The invariant -/

section

variable {s t : State} {ws : List Int} (hs : s.Inv)

include hs

theorem State.Inv.assertRst : s.assertRst.Inv :=
  { hs with
    inHead := Nat.zero_le _
    ip := fits_zero _
    reason := by simp
    outFits := fun _ h => by cases h
    steps := fun n _ => Nat.zero_le n
    held := fun _ => ⟨rfl, rfl, rfl, rfl, rfl, rfl⟩ }

theorem State.Inv.loadProgram (h : s.loadProgram ws = .next t) : t.Inv := by
  obtain ⟨a, b, hrst, hlen, hfits, rfl⟩ := (State.loadProgram_eq_next_iff ws s t).1 h
  exact
    { hs with
      memWf := Memory.wf_writeAll 0 ws hs.memWf
      memWithin := Memory.within_writeAll hs.memWithin ((Nat.zero_add _).trans_le hlen) hfits
      len := hlen
      held := fun _ => hs.held (by simp [hrst]) }

/-- `IN_HEAD` is 0 while `rst` is asserted, so it is within whatever input is loaded. -/
theorem State.Inv.loadInput (h : s.loadInput ws = .next t) : t.Inv := by
  obtain ⟨a, b, hrst, hlen, hfits, rfl⟩ := (State.loadInput_eq_next_iff ws s t).1 h
  have hheld : s.rst ≠ .released := by simp [hrst]
  obtain ⟨-, -, -, hhead, -, -⟩ := hs.held hheld
  exact
    { hs with
      inputBound := hlen
      inputFits := hfits
      inHead := hhead.trans_le (Nat.zero_le _)
      held := fun _ => hs.held hheld }

theorem State.Inv.releaseRst (h : s.releaseRst = .next t) : t.Inv := by
  obtain ⟨-, rfl⟩ := (State.releaseRst_eq_next_iff s t).1 h
  exact { hs with held := fun h => absurd rfl h }

end

/-- Settles O21: one lemma per transaction. -/
theorem hostTransactionsKeepTheInvariants : Obligations.HostTransactionsKeepTheInvariants := fun _ _ _ hs =>
  ⟨hs.assertRst, hs.loadProgram, hs.loadInput, hs.releaseRst⟩

/-! ## What is refused (70_reset_and_hazards.md R101, R102, R106) -/

section

variable {s : State} {ws : List Int}

theorem State.loadProgram_outside_reset (hr : s.rst = .released) : s.loadProgram ws = .refused .loadOutsideReset := by
  simp [State.loadProgram, hr]

theorem State.loadInput_outside_reset (hr : s.rst = .released) : s.loadInput ws = .refused .loadOutsideReset := by
  simp [State.loadInput, hr]

theorem State.releaseRst_outside_reset (hr : s.rst = .released) : s.releaseRst = .refused .releaseOutsideReset := by
  simp [State.releaseRst, hr]

theorem all_fits_eq_false {w : Nat} (hw : ∃ v ∈ ws, ¬ fits w v) : ws.all (fun v => decide (fits w v)) = false := by
  simpa only [List.all_eq_false, decide_eq_true_eq] using hw

variable {pl il : Bool} (hr : s.rst = .asserted pl il)

include hr

theorem State.loadProgram_too_long (hl : s.params.memDepth < ws.length) :
    s.loadProgram ws = .refused .programTooLong := by
  simp [State.loadProgram, hr, hl]

theorem State.loadProgram_too_wide (hl : ws.length ≤ s.params.memDepth) (hw : ∃ v ∈ ws, ¬ fits s.params.w v) :
    s.loadProgram ws = .refused .programWordTooWide := by
  simp only [State.loadProgram, hr, if_neg hl.not_gt, if_pos (all_fits_eq_false hw)]

theorem State.loadInput_too_long (hl : s.params.inMax < ws.length) : s.loadInput ws = .refused .inputTooLong := by
  simp [State.loadInput, hr, hl]

theorem State.loadInput_too_wide (hl : ws.length ≤ s.params.inMax) (hw : ∃ v ∈ ws, ¬ fits s.params.w v) :
    s.loadInput ws = .refused .inputWordTooWide := by
  simp only [State.loadInput, hr, if_neg hl.not_gt, if_pos (all_fits_eq_false hw)]

theorem State.releaseRst_before_load (hpart : ¬ (pl = true ∧ il = true)) :
    s.releaseRst = .refused .releaseBeforeLoad := by
  cases pl <;> cases il
  case true.true => exact absurd ⟨rfl, rfl⟩ hpart
  all_goals simp [State.releaseRst, hr]

end

/-! A refusal inside the boot sequence is the answer of the boot sequence. -/

section

variable {s t : State} {p xs : List Int} {f : Refusal}

theorem State.boot_refused_of_loadProgram (h : s.assertRst.loadProgram p = .refused f) : s.boot p xs = .refused f := by
  simp [State.boot, h, andThen]

theorem State.boot_refused_of_loadInput (hp : s.assertRst.loadProgram p = .next t) (h : t.loadInput xs = .refused f) :
    s.boot p xs = .refused f := by
  simp [State.boot, hp, h, andThen]

/-- A program that fits is loaded, and the input port still waits for its load, on the same core. -/
theorem State.loadProgram_taken (hl : p.length ≤ s.params.memDepth) (hw : ∀ v ∈ p, fits s.params.w v) :
    ∃ t, s.assertRst.loadProgram p = .next t ∧ t.params = s.params ∧ t.rst = .asserted true false :=
  ⟨_, (State.loadProgram_eq_next_iff p s.assertRst _).2 ⟨false, false, rfl, hl, hw, rfl⟩, rfl, rfl⟩

/-- After a program that fits, the boot sequence refuses an input by the first test the input fails. -/
theorem State.boot_refused_of_input (hl : p.length ≤ s.params.memDepth) (hw : ∀ v ∈ p, fits s.params.w v) :
    (s.params.inMax < xs.length → s.boot p xs = .refused .inputTooLong) ∧
    (xs.length ≤ s.params.inMax → (∃ v ∈ xs, ¬ fits s.params.w v) → s.boot p xs = .refused .inputWordTooWide) := by
  obtain ⟨t, hp, hparams, hrst⟩ := State.loadProgram_taken hl hw
  rw [← hparams]
  exact ⟨fun hx => boot_refused_of_loadInput hp (loadInput_too_long hrst hx),
    fun hx hv => boot_refused_of_loadInput hp (loadInput_too_wide hrst hx hv)⟩

end

/-- One load after `rst` is asserted leaves the other one missing (70_reset_and_hazards.md R102). -/
theorem releaseRst_after_loadProgram_only {s t : State} {ws : List Int} (h : s.assertRst.loadProgram ws = .next t) :
    t.releaseRst = .refused .releaseBeforeLoad := by
  obtain ⟨_, _, ⟨⟩, -, -, rfl⟩ := (State.loadProgram_eq_next_iff ws _ t).1 h
  exact State.releaseRst_before_load rfl (by simp)

theorem releaseRst_after_loadInput_only {s t : State} {ws : List Int} (h : s.assertRst.loadInput ws = .next t) :
    t.releaseRst = .refused .releaseBeforeLoad := by
  obtain ⟨_, _, ⟨⟩, -, -, rfl⟩ := (State.loadInput_eq_next_iff ws _ t).1 h
  exact State.releaseRst_before_load rfl (by simp)

/-- Settles O25: each transaction refuses by its first failing test, and boot answers the refusal of its first refused
transaction. -/
theorem forbiddenHostMovesAreRefused : Obligations.ForbiddenHostMovesAreRefused :=
  ⟨fun _ hr => ⟨State.releaseRst_outside_reset hr, fun _ =>
      ⟨State.loadProgram_outside_reset hr, State.loadInput_outside_reset hr⟩⟩,
    fun _ _ _ _ hr => ⟨State.loadProgram_too_long hr, State.loadProgram_too_wide hr, State.loadInput_too_long hr,
      State.loadInput_too_wide hr⟩,
    fun _ _ _ => ⟨fun hl => State.boot_refused_of_loadProgram (State.loadProgram_too_long rfl hl),
      fun hl hw => State.boot_refused_of_loadProgram (State.loadProgram_too_wide rfl hl hw),
      State.boot_refused_of_input⟩,
    fun _ _ _ => State.releaseRst_before_load,
    fun _ => ⟨State.releaseRst_before_load rfl (by simp), fun _ _ => releaseRst_after_loadProgram_only,
      fun _ _ => releaseRst_after_loadInput_only⟩⟩

end Sys2Proof.Machine
